-- ==== Sys2Proof/Word.lean ====
section
/-! DEFINITION. The word types of SHA256-CORE: every value is unsigned (00_scope.md R8, R9). -/

namespace Sys2Proof

/-- A w32 value (00_scope.md R8): a state word, a control register, a command word. -/
abbrev Word := BitVec 32

/-- A w8 value: one byte of a buffer. -/
abbrev Byte := BitVec 8

end Sys2Proof
end

