-- ==== Sys2Proof/Syntax.lean ====
section
/-! DEFINITION. The instructions of SHA256-CORE: the six commands the host writes to CMD (00_scope.md R2,
30_encoding.md R84, R85). -/

namespace Sys2Proof

/-- `Cmd` of 30_encoding.md R85, one constructor per row of spec/opcode_table.json. PAD's only operand is its LEN,
0..63 (R82): its type admits exactly the lengths the encoding admits. -/
inductive Instr where
  | init
  | absorb
  | pad (len : Fin 64)
  | padnull
  | extract
  | clear
deriving DecidableEq, Repr

end Sys2Proof
end

