-- ==== Sys2Proof/WellFormed.lean ====
section
/-! DEFINITION. Well-formed commands. `Instr` cannot hold an ill-formed command (its PAD length is a `Fin 64`), so the
check stands where a term can be ill-formed: on a command line as the host's assembler reads it (30_encoding.md R89),
a mnemonic with decimal operands. -/

namespace Sys2Proof

/-- The six mnemonics of 30_encoding.md R89. -/
inductive Mnemonic where
  | init | absorb | pad | padnull | extract | clear
deriving DecidableEq, Repr

/-- An assembler line: a mnemonic and the decimal operands written after it. -/
structure AsmLine where
  mnemonic : Mnemonic
  operands : List Nat
deriving DecidableEq, Repr

/-- How many operands each mnemonic takes (R89: PAD takes one, the others none). -/
def Mnemonic.arity : Mnemonic → Nat
  | .pad => 1
  | .init | .absorb | .padnull | .extract | .clear => 0

/-- R89: the line has its mnemonic's number of operands, and a PAD operand lies in 0..63 (outside it "is an assembly
error: it cannot be encoded"). -/
def AsmLine.wellFormed (l : AsmLine) : Bool :=
  l.operands.length == l.mnemonic.arity && l.operands.all (· < 64)

/-- The command a line stands for, `none` where the line is ill-formed. -/
def AsmLine.assemble (l : AsmLine) : Option Instr :=
  match l.mnemonic, l.operands with
  | .init, [] => some .init
  | .absorb, [] => some .absorb
  | .pad, [n] => if h : n < 64 then some (.pad ⟨n, h⟩) else none
  | .padnull, [] => some .padnull
  | .extract, [] => some .extract
  | .clear, [] => some .clear
  | _, _ => none

/-- A command is well-formed iff its operand fits the encoding's field (R80, R82: LEN is 6 bits). The type of PAD's
operand makes this true of every `Instr` (`Sys2Proof.Laws.OperandFits`). -/
def Instr.wellFormed : Instr → Bool
  | .pad len => decide (len.val < 2 ^ 6)
  | .init | .absorb | .padnull | .extract | .clear => true

end Sys2Proof
end

