-- ==== Sys2Proof/Decode.lean ====
section
/-! DEFINITION. The command decoder, total on all 2^32 words (30_encoding.md R80–R86), and after it the encoder.
A command is one 32-bit write to CMD (R88): no byte order of its own exists (20_memory.md R64). -/

namespace Sys2Proof

/-- Why a word is no command (30_encoding.md R86). All three raise ILLEGAL_COMMAND. -/
inductive Illegal where
  /-- RSV ≠ 0 (R83). -/
  | reservedBits
  /-- OPC is 0x00 or 0x07..0xFF (R84, R86). -/
  | unknownOpcode
  /-- LEN ≠ 0 in a command other than PAD (R82, R86). -/
  | lenNotZero
deriving DecidableEq, Repr

/-- OPC, `cmd[7:0]` (R81). -/
def opcField (w : Word) : BitVec 8 := w.extractLsb' 0 8

/-- LEN, `cmd[13:8]` (R82). -/
def lenBits (w : Word) : BitVec 6 := w.extractLsb' 8 6

/-- RSV, `cmd[31:14]` (R83). -/
def rsvField (w : Word) : BitVec 18 := w.extractLsb' 14 18

/-- A command without an operand: its LEN must be 0. -/
def decodePlain (i : Instr) (len : BitVec 6) : Except Illegal Instr :=
  if len = 0 then .ok i else .error .lenNotZero

/-- `decode` of 30_encoding.md R85. -/
def decode (w : Word) : Except Illegal Instr :=
  if rsvField w ≠ 0 then .error .reservedBits
  else if opcField w = 0x01 then decodePlain .init (lenBits w)
  else if opcField w = 0x02 then decodePlain .absorb (lenBits w)
  else if opcField w = 0x03 then .ok (.pad (lenBits w).toFin)
  else if opcField w = 0x04 then decodePlain .padnull (lenBits w)
  else if opcField w = 0x05 then decodePlain .extract (lenBits w)
  else if opcField w = 0x06 then decodePlain .clear (lenBits w)
  else .error .unknownOpcode

/-- The instruction the decoder reads from a table word of `nbits` bits (bits above `nbits` are 0). -/
def decodeTableWord (nbits w : Nat) : Option Instr :=
  (decode (BitVec.ofNat 32 (w % 2 ^ nbits))).toOption

/-- The OPC value of a command (R84). -/
def Instr.opcode : Instr → BitVec 8
  | .init => 0x01
  | .absorb => 0x02
  | .pad _ => 0x03
  | .padnull => 0x04
  | .extract => 0x05
  | .clear => 0x06

/-- The LEN field of a command (R82: PAD's `data_length`; 0 for every other command). -/
def Instr.lenField : Instr → BitVec 6
  | .pad len => BitVec.ofFin len
  | .init | .absorb | .padnull | .extract | .clear => 0

/-- The command's word: RSV = 0, LEN from bit 8 on, OPC (R80; R84: "0x00000003 + len·0x100"). -/
def encode (i : Instr) : Word := BitVec.ofNat 32 (i.opcode.toNat + i.lenField.toNat * 0x100)

/-- One row of the opcode map (R84): a word w selects it iff `w ∧ mask = value`. -/
structure OpcodeRow where
  mnemonic : Mnemonic
  value : Word
  mask : Word
deriving DecidableEq, Repr

/-- The opcode map of R84, row by row. -/
def opcodeMap : List OpcodeRow :=
  [⟨.init, 0x00000001, 0xFFFFFFFF⟩, ⟨.absorb, 0x00000002, 0xFFFFFFFF⟩, ⟨.pad, 0x00000003, 0xFFFFC0FF⟩] ++
  [⟨.padnull, 0x00000004, 0xFFFFFFFF⟩, ⟨.extract, 0x00000005, 0xFFFFFFFF⟩, ⟨.clear, 0x00000006, 0xFFFFFFFF⟩]

/-- R84: the word selects the row. -/
def OpcodeRow.selects (r : OpcodeRow) (w : Word) : Bool := (w &&& r.mask) == r.value

/-- The mnemonic of a command. -/
def Instr.mnemonic : Instr → Mnemonic
  | .init => .init
  | .absorb => .absorb
  | .pad _ => .pad
  | .padnull => .padnull
  | .extract => .extract
  | .clear => .clear

end Sys2Proof
end

