-- ==== Sys2Proof/Config.lean ====
section
/-! DEFINITION. What an implementation fixes (92_eei_decisions.md, "Open parameters") and the free values, which the
spec leaves unspecified (93_implementation_defined.md U14, U16, U17). A free value has no body: nothing can be proved
of it, so a claim holds whatever it is. -/

namespace Sys2Proof.Config

/-- MAX_MSG_BYTES, the default: 2^61 bytes (00_scope.md R7, 42_padding.md R157, 90_conflicts.md C1). The machine holds
the parameter in `State.maxMsgBytes`, so a claim covers every admissible value. -/
def maxMsgBytesDefault : Nat := 0x2000000000000000

/-- The largest admissible MAX_MSG_BYTES (92_eei_decisions.md, "Open parameters": 1 ≤ MAX_MSG_BYTES ≤ 2^61). -/
def maxMsgBytesLimit : Nat := 0x2000000000000000

/-- FREE VALUE (log entry 3): the word that a 32-bit read returns where the spec leaves it unspecified
(60_exceptions.md R202, R206; U14, U16), at the k-th use of the free-value counter. -/
opaque freeReplyWord : Nat → Word

/-- FREE VALUE (log entry 3): the byte that an 8-bit read returns where the spec leaves it unspecified. -/
opaque freeReplyByte : Nat → Byte

/-- FREE VALUE (log entry 4): state word i after the fault raised at counter k (60_exceptions.md R205; U17). -/
opaque freeHashWord : Nat → Nat → Word

/-- FREE VALUE (log entry 4): the buffer byte at port offset a after the fault raised at counter k (R205; U17). -/
opaque freeBufferByte : Nat → Nat → Byte

end Sys2Proof.Config
end

