-- ==== Sys2Proof/Machine/State.lean ====
section
/-! DEFINITION. The state of one SHA256-CORE block as plain data: the record of 10_state.md R20, then the model's own
fields (the host's pending inputs, the reply on the port, the free-value counter, the parameter MAX_MSG_BYTES). -/

namespace Sys2Proof.Machine

/-- Eight w32 values in order: the state words H[0..7] (10_state.md R21), and the working variables a..h (R23). -/
structure Words8 where
  w0 : Word
  w1 : Word
  w2 : Word
  w3 : Word
  w4 : Word
  w5 : Word
  w6 : Word
  w7 : Word
deriving DecidableEq, Repr

/-- PHASE, the contract monitor (10_state.md R34). -/
inductive Phase where
  | uninit | absorbing | paddedFinal | paddedMore | needNull | done | cleared
deriving DecidableEq, Repr

/-- The fault codes 1..7 (60_exceptions.md R201); code 0 is `no fault`. -/
inductive FaultCode where
  | illegalCommand | sequence | length | concurrent | bufferHazard | undefinedRead | badAccess
deriving DecidableEq, Repr

/-- The two transfer widths of the port (20_memory.md R50). -/
inductive Width where
  | w8 | w32
deriving DecidableEq, Repr

/-- The direction of a host access (20_memory.md R50). -/
inductive Dir where
  | read | write
deriving DecidableEq, Repr

/-- One host access (20_memory.md R50); `data` is used only when `dir` is `write`. -/
structure HostAccess where
  off : BitVec 8
  width : Width
  dir : Dir
  data : Word
deriving DecidableEq, Repr

/-- What a legal access reaches, one constructor per row and direction of the address map (20_memory.md R51). The
buffer accesses carry the port offset of their byte. -/
inductive PortOp where
  | writeCmd (w : Word)
  | readStatus
  | readFinfo0
  | readFinfo1
  | readMlenLo
  | readMlenHi
  | writeMlenLo (v : Word)
  | writeMlenHi (v : Word)
  | readBlk (off : Nat)
  | writeBlk (off : Nat) (v : Byte)
  | readDig (off : Nat)
deriving DecidableEq, Repr

/-- What happens next at the block: who acts is data, so that every interleaving of the host's accesses with the core
step is some list of inputs (20_memory.md R69, R70; 70_reset_and_hazards.md R230, R234, R241; log entry 1). -/
inductive Input where
  /-- The host makes a port access. -/
  | access (acc : HostAccess)
  /-- The core takes its turn: the core step, where it is enabled. -/
  | core
  /-- RST is asserted. -/
  | rst
  /-- A second host makes an access to this same block: outside the model (20_memory.md R72; U4). -/
  | secondHost (acc : HostAccess)
deriving DecidableEq, Repr

/-- What the last host access returned on the port: nothing for a write, a byte or a word for a read. -/
inductive Reply where
  | silent
  | byte (v : Byte)
  | word (v : Word)
deriving DecidableEq, Repr

/-- The bytes that hold a defined value, by port offset: BLK[i] at 0x40 + i, DIG[i] at 0x80 + i (20_memory.md R51).
An offset that is not listed holds no value (⊥): BLKdef[i] is 1 iff 0x40 + i is listed (10_state.md R27). The one
canonical form is `Memory.wf`: offsets strictly rising, all of them buffer offsets. -/
abbrev Memory := List Host.Cell

/-- The machine. First the record of 10_state.md R20, then the model's own fields. -/
structure State where
  /-- H[0..7], or ⊥ as a whole (R21). -/
  h : Option Words8
  /-- BLK, BLKdef and DIG (R25, R27, R28): the defined bytes of the two buffers. -/
  mem : Memory
  /-- DIG_VALID (R29). -/
  digValid : Bool
  /-- MLEN_LO, or ⊥ (R30). -/
  mlenLo : Option Word
  /-- MLEN_HI, or ⊥ (R30). -/
  mlenHi : Option Word
  /-- PHASE (R34). -/
  phase : Phase
  /-- COMPLETE (R35). -/
  complete : Bool
  /-- BUSY (R36). -/
  busy : Bool
  /-- PENDING, or ⊥ (R36). -/
  pending : Option Instr
  /-- FAULT (R37). -/
  fault : Bool
  /-- FCODE (R37). -/
  fcode : BitVec 4
  /-- FINFO0 (R37). -/
  finfo0 : Word
  /-- FINFO1 (R37). -/
  finfo1 : Word
  /-- THE MODEL'S OWN: what happens next at the block, the next event first (log entry 1). -/
  inputs : List Input
  /-- THE MODEL'S OWN: what the last host access returned (log entry 2). -/
  reply : Reply
  /-- THE MODEL'S OWN: how many times a free value was drawn (log entries 3 and 4). -/
  fresh : Nat
  /-- THE MODEL'S OWN: the parameter MAX_MSG_BYTES of this block (92_eei_decisions.md D10; log entry 5). -/
  maxMsgBytes : Nat
deriving DecidableEq, Repr

/-- Why the machine stops. A fault of the SPEC is no stop: it is recorded in FAULT, FCODE, FINFO0 and FINFO1 and the
machine goes on to a next state (60_exceptions.md R200, R205). -/
inductive Fault where
  /-- Raised by a core step that would consume a ⊥ operand (H, a BLK byte or an MLEN half). The issue checks exclude it
  (R203, R208) and no state with `State.Inv` has it. SAFE: the model stops where the spec gives no value (00_scope.md
  R12). -/
  | undefinedOperand
  /-- Raised by ABSORB's core step in a phase whose next phase 41_compression.md R132 does not give. The issue checks
  exclude it and no state with `State.Inv` has it. SAFE. -/
  | noNextPhase
  /-- Raised by a core turn with BUSY = 1 and PENDING = ⊥, which 10_state.md R36 excludes; no state with `State.Inv` has
  it. SAFE. -/
  | noPendingCommand
deriving DecidableEq, Repr

/-- What the model has no meaning for. -/
inductive Refusal where
  /-- Raised by an arm of `exec` for an instruction without a meaning: none here. SAFE. -/
  | notModelled (mnemonic : String)
  /-- Raised by `turn` on an access of a second host to the same block: "refuse" in 93_implementation_defined.md U4
  (20_memory.md R72). SAFE. -/
  | secondHost
deriving DecidableEq, Repr

/-- The block after a hardware reset (10_state.md R40), with no input pending. The buffers hold no defined byte, H and
both MLEN halves are ⊥. The last four fields are the model's own (log entries 1 to 5). -/
def State.reset : State where
  h := none
  mem := []
  digValid := false
  mlenLo := none
  mlenHi := none
  phase := .uninit
  complete := false
  busy := false
  pending := none
  fault := false
  fcode := 0
  finfo0 := 0
  finfo1 := 0
  inputs := []
  reply := .silent
  fresh := 0
  maxMsgBytes := Config.maxMsgBytesDefault

end Sys2Proof.Machine
end

