-- ==== Sys2Proof/Machine/Ops.lean ====
section
/-! DEFINITION. The named operations over the buffers and registers: reading and writing a buffer byte, the halves of a
command's life (accept, finish), raising a fault (60_exceptions.md R205) and, beside it, the only way out of one, the
hardware reset (70_reset_and_hazards.md R230). -/

namespace Sys2Proof.Machine

/-! ## The buffers -/

/-- Port offset of BLK[0] (20_memory.md R51). -/
def blkBase : Nat := 0x40

/-- Port offset of DIG[0] (R51). -/
def digBase : Nat := 0x80

/-- The first offset after DIG[31] (R51). -/
def bufferEnd : Nat := 0xA0

/-- The byte at a port offset, `none` where it holds no defined value (10_state.md R27, R29). -/
def Memory.read : Memory → Nat → Option Byte
  | [], _ => none
  | (b, v) :: m, a => if a = b then some v else Memory.read m a

/-- Writing a buffer byte: `BLK[i] <- v` with BLKdef[i] <- 1, or `DIG[i] <- v` (00_scope.md R11). -/
def Memory.write : Memory → Nat → Byte → Memory
  | [], a, v => [(a, v)]
  | (b, w) :: m, a, v =>
    if a < b then (a, v) :: (b, w) :: m
    else if a = b then (a, v) :: m
    else (b, w) :: Memory.write m a v

/-- Writing consecutive bytes from offset `a` upwards, in increasing order (42_padding.md R154). Irreducible: cite
`Memory.read_writeBytes` and its companions. -/
@[irreducible] def Memory.writeBytes : Memory → Nat → List Byte → Memory
  | m, _, [] => m
  | m, a, v :: vs => Memory.writeBytes (Memory.write m a v) (a + 1) vs

/-- The `n` bytes from offset `a` upwards, `none` if one of them holds no defined value. -/
def Memory.readBytes (m : Memory) (a : Nat) : Nat → Option (List Byte)
  | 0 => some []
  | n + 1 =>
    match Memory.read m a, Memory.readBytes m (a + 1) n with
    | some b, some bs => some (b :: bs)
    | _, _ => none

/-- Offsets strictly rising, all of them in [lo, hi). -/
def Memory.within (lo hi : Nat) : Memory → Bool
  | [] => true
  | (a, _) :: m => decide (lo ≤ a) && decide (a < hi) && Memory.within (a + 1) hi m

/-- The canonical form: offsets strictly rising, each the offset of a byte of BLK or DIG. Every listed byte differs from
what an unlisted offset reads as, which is no value. -/
def Memory.wf (m : Memory) : Bool := Memory.within blkBase bufferEnd m

/-- Every defined byte becomes a free value, none appears or disappears (R205: "BLK and DIG are unspecified"). -/
def Memory.havoc (k : Nat) : Memory → Memory
  | [] => []
  | (a, _) :: m => (a, Config.freeBufferByte k a) :: Memory.havoc k m

/-! ## A command's life -/

/-- `accept(c)` (60_exceptions.md R204). -/
def accept (i : Instr) (s : State) : State := { s with pending := some i, busy := true }

/-- The end of every `perform`: BUSY <- 0; PENDING <- ⊥ (70_reset_and_hazards.md R234). -/
def finish (s : State) : State := { s with pending := none, busy := false }

/-! ## Faults -/

/-- The 4-bit FCODE of a fault (60_exceptions.md R201). -/
def FaultCode.code : FaultCode → BitVec 4
  | .illegalCommand => 1
  | .sequence => 2
  | .length => 3
  | .concurrent => 4
  | .bufferHazard => 5
  | .undefinedRead => 6
  | .badAccess => 7

/-- FINFO0 of a faulting access (R205): the word of a 32-bit write, the byte of an 8-bit write, 0 for a read. -/
def HostAccess.info0 (acc : HostAccess) : Word :=
  match acc.dir, acc.width with
  | .write, .w32 => acc.data
  | .write, .w8 => (acc.data.extractLsb' 0 8).zeroExtend 32
  | .read, _ => 0

/-- FINFO1 of a faulting access (R205; 10_state.md R37). -/
def HostAccess.info1 (acc : HostAccess) : Word :=
  0x80000000 ||| (match acc.width with | .w32 => 0x200 | .w8 => 0)
    ||| (match acc.dir with | .write => 0x100 | .read => 0) ||| acc.off.zeroExtend 32

/-- Eight free state words (R205; U17). -/
def freeHash (k : Nat) : Words8 :=
  ⟨Config.freeHashWord k 0, Config.freeHashWord k 1, Config.freeHashWord k 2, Config.freeHashWord k 3,
   Config.freeHashWord k 4, Config.freeHashWord k 5, Config.freeHashWord k 6, Config.freeHashWord k 7⟩

/-- What an access returns where the spec leaves the value unspecified (R202, R206): a free value of the access's width
for a read, nothing for a write. -/
def HostAccess.unspecifiedReply (acc : HostAccess) (k : Nat) : Reply :=
  match acc.dir, acc.width with
  | .read, .w32 => .word (Config.freeReplyWord k)
  | .read, .w8 => .byte (Config.freeReplyByte k)
  | .write, _ => .silent

/-- `raise Fault(code, acc)`, fault entry (60_exceptions.md R205): the record of the fault, the pending command
abandoned. H, BLK and DIG become free values where they were defined (log entry 4); the access has no other effect. -/
def raiseFault (code : FaultCode) (acc : HostAccess) (s : State) : State :=
  { s with
    fault := true
    fcode := code.code
    finfo0 := acc.info0
    finfo1 := acc.info1
    pending := none
    busy := false
    h := s.h.map fun _ => freeHash s.fresh
    mem := Memory.havoc s.fresh s.mem
    reply := acc.unspecifiedReply s.fresh
    fresh := s.fresh + 1 }

/-- RST (70_reset_and_hazards.md R230, R231; 60_exceptions.md R209): every piece of the block's state takes its reset
value; the model's own fields that stand for the outside world and the parameter stay. -/
def hardwareReset (s : State) : State :=
  { State.reset with inputs := s.inputs, fresh := s.fresh, maxMsgBytes := s.maxMsgBytes }

end Sys2Proof.Machine
end

