-- ==== Sys2Proof/Machine/Operands.lean ====
section
/-! DEFINITION. The operands of the commands (the state words, the block, the message length, the bit count) and the
byte packing between bytes and words (00_scope.md R10, 40_primitives.md R113, R114). -/

namespace Sys2Proof.Machine

/-- BE32: b0·2^24 + b1·2^16 + b2·2^8 + b3 (00_scope.md R10). -/
def be32 (b0 b1 b2 b3 : Byte) : Word :=
  BitVec.ofNat 32 (b0.toNat * 2 ^ 24 + b1.toNat * 2 ^ 16 + b2.toNat * 2 ^ 8 + b3.toNat)

/-- bytesBE_32 (40_primitives.md R114). -/
def bytesBE32 (x : Word) : List Byte :=
  [x.extractLsb' 24 8, x.extractLsb' 16 8, x.extractLsb' 8 8, x.extractLsb' 0 8]

/-- bytesBE_64 (R114). -/
def bytesBE64 (x : BitVec 64) : List Byte :=
  [x.extractLsb' 56 8, x.extractLsb' 48 8, x.extractLsb' 40 8, x.extractLsb' 32 8] ++
  [x.extractLsb' 24 8, x.extractLsb' 16 8, x.extractLsb' 8 8, x.extractLsb' 0 8]

/-- The block's words, big-endian: loadW(B, 0), loadW(B, 1), … (R113; 41_compression.md R133). -/
def blockWords : List Byte → List Word
  | b0 :: b1 :: b2 :: b3 :: bs => be32 b0 b1 b2 b3 :: blockWords bs
  | _ => []

/-- The eight words in order. -/
def Words8.toList (x : Words8) : List Word := [x.w0, x.w1, x.w2, x.w3, x.w4, x.w5, x.w6, x.w7]

/-- The digest bytes of the state words: each big-endian, H[0] first (20_memory.md R63, 43_digest.md R171). -/
def Words8.digest (x : Words8) : List Byte := x.toList.flatMap bytesBE32

/-- BLKdef[i] (10_state.md R27). -/
def State.blkDef (s : State) (i : Nat) : Bool := (s.mem.read (blkBase + i)).isSome

/-- BLK[0..63], `none` if some BLKdef[i] = 0 (41_compression.md R132). -/
def State.block (s : State) : Option (List Byte) := s.mem.readBytes blkBase 64

/-- DIG[0..31], `none` if a byte holds no defined value. -/
def State.digestBytes (s : State) : Option (List Byte) := s.mem.readBytes digBase 32

/-- MLEN = MLEN_HI ++ MLEN_LO, `none` if a half is ⊥ (10_state.md R30). -/
def State.mlen (s : State) : Option (BitVec 64) :=
  match s.mlenHi, s.mlenLo with
  | some hi, some lo => some (BitVec.ofNat 64 (hi.toNat * 2 ^ 32 + lo.toNat))
  | _, _ => none

/-- L := (MLEN · 8) mod 2^64 (42_padding.md R151). -/
def bitCount (mlen : BitVec 64) : BitVec 64 := mlen * 8

end Sys2Proof.Machine
end

