-- ==== Sys2Proof/Machine/Flags.lean ====
section
/-! DEFINITION. The status bits: PHASE's code and transition table, the length limit, the STATUS word. -/

namespace Sys2Proof.Machine

/-- PHASE's 3-bit code (10_state.md R34). -/
def Phase.code : Phase → BitVec 3
  | .uninit => 0
  | .absorbing => 1
  | .paddedFinal => 2
  | .paddedMore => 3
  | .needNull => 4
  | .done => 5
  | .cleared => 6

/-- The phase after an ABSORB (41_compression.md R132), `none` where its table has no row. -/
def Phase.afterAbsorb : Phase → Option Phase
  | .absorbing => some .absorbing
  | .paddedFinal => some .done
  | .paddedMore => some .needNull
  | .uninit | .needNull | .done | .cleared => none

/-- The shape of a PAD: A (true) for len ≤ 55, where the length field fits, B otherwise (42_padding.md R152). -/
def shapeA (len : Fin 64) : Bool := len.val ≤ 55

/-- The transition table of 42_padding.md R156; `none` is its entry SEQ. -/
def Phase.next : Phase → Instr → Option Phase
  | _, .init => some .absorbing
  | _, .clear => some .cleared
  | p, .absorb => p.afterAbsorb
  | .absorbing, .pad len => some (if shapeA len then .paddedFinal else .paddedMore)
  | .uninit, .pad _ | .paddedFinal, .pad _ | .paddedMore, .pad _ | .needNull, .pad _ | .done, .pad _
  | .cleared, .pad _ => none
  | .needNull, .padnull => some .paddedFinal
  | .uninit, .padnull | .absorbing, .padnull | .paddedFinal, .padnull | .paddedMore, .padnull | .done, .padnull
  | .cleared, .padnull => none
  | .done, .extract => some .done
  | .cleared, .extract => some .cleared
  | .uninit, .extract | .absorbing, .extract | .paddedFinal, .extract | .paddedMore, .extract
  | .needNull, .extract => none

/-- `allowed(PHASE, cmd)` (R156). -/
def Phase.allows (p : Phase) (i : Instr) : Bool := (p.next i).isSome

/-- The padded block waits to be absorbed, so the host may not write BLK (60_exceptions.md R202). -/
def Phase.holdsPaddedBlock : Phase → Bool
  | .paddedFinal | .paddedMore => true
  | .uninit | .absorbing | .needNull | .done | .cleared => false

/-- The LENGTH check (42_padding.md R157): MLEN ≥ MAX_MSG_BYTES. -/
def lengthExceeds (mlen : BitVec 64) (maxMsgBytes : Nat) : Bool := maxMsgBytes ≤ mlen.toNat

/-- STATUS (10_state.md R38, 20_memory.md R57). -/
def State.status (s : State) : Word :=
  (s.fcode ++ 0#1 ++ s.phase.code ++ BitVec.ofBool s.digValid ++ BitVec.ofBool s.fault ++ BitVec.ofBool s.complete
    ++ BitVec.ofBool s.busy : BitVec (4 + 1 + 3 + 1 + 1 + 1 + 1)).zeroExtend 32

end Sys2Proof.Machine
end

