-- ==== Sys2Proof/Machine/Issue.lean ====
section
/-! DEFINITION. The issue half of a command: the checks of a CMD write in their order (60_exceptions.md R203), then
acceptance (R204) or fault entry (R205). -/

namespace Sys2Proof.Machine

/-- The CMD write that issues a command: the access a fault of its issue checks records. -/
def cmdWrite (w : Word) : HostAccess := ⟨0x00, .w32, .write, w⟩

/-- The operand checks of a command that the phase allows (R203): the block for ABSORB, then for PAD and PADNULL the
definedness of MLEN before its limit. `none`: they pass. -/
def operandFault (i : Instr) (s : State) : Option FaultCode :=
  match i with
  | .absorb => if s.block.isNone then some .undefinedRead else none
  | .pad _ | .padnull =>
    match s.mlen with
    | none => some .undefinedRead
    | some n => if lengthExceeds n s.maxMsgBytes then some .length else none
  | .init | .extract | .clear => none

/-- The first issue check that a decoded command fails (R203), `none` if it is to be accepted. -/
def issueFault (i : Instr) (s : State) : Option FaultCode :=
  if s.phase.allows i then operandFault i s else some .sequence

/-- `issue(w, acc)` for a word that decodes to `i` (R203, R204, R205). -/
def issue (i : Instr) (s : State) : State :=
  match issueFault i s with
  | some code => raiseFault code (cmdWrite (encode i)) s
  | none => accept i s

end Sys2Proof.Machine
end

