-- ==== Sys2Proof/Machine/Compression.lean ====
section
/-! DEFINITION. The compression function and the commands INIT and ABSORB (41_compression.md). Every command has two
halves (R130): while BUSY = 0 its meaning is the issue half, while BUSY = 1 it is the core's `perform`. -/

namespace Sys2Proof.Machine

/-- The next schedule word W[t], t = the number of words so far (41_compression.md R134); used from t = 16 on. -/
def nextScheduleWord (w : List Word) : Word :=
  smallSigma1 (w.getD (w.length - 2) 0) + w.getD (w.length - 7) 0 + smallSigma0 (w.getD (w.length - 15) 0)
    + w.getD (w.length - 16) 0

/-- The schedule extended by `n` words. -/
def extendSchedule : Nat → List Word → List Word
  | 0, w => w
  | n + 1, w => extendSchedule n (w ++ [nextScheduleWord w])

/-- W[0..63] of a block (R133, R134). -/
def schedule (block : List Byte) : List Word := extendSchedule 48 (blockWords block)

/-- One round with K[t] and W[t] (R136). -/
def round (v : Words8) (k w : Word) : Words8 :=
  let t1 := v.w7 + bigSigma1 v.w4 + ch v.w4 v.w5 v.w6 + k + w
  let t2 := bigSigma0 v.w0 + maj v.w0 v.w1 v.w2
  ⟨t1 + t2, v.w0, v.w1, v.w2, v.w3 + t1, v.w4, v.w5, v.w6⟩

/-- The rounds t = 0, 1, …, one for each pair (K[t], W[t]) (R136). -/
def rounds : List (Word × Word) → Words8 → Words8
  | [], v => v
  | (k, w) :: kws, v => rounds kws (round v k w)

/-- Feed-forward (R137). -/
def feedForward (h v : Words8) : Words8 :=
  ⟨h.w0 + v.w0, h.w1 + v.w1, h.w2 + v.w2, h.w3 + v.w3, h.w4 + v.w4, h.w5 + v.w5, h.w6 + v.w6, h.w7 + v.w7⟩

/-- `compress` (R138). -/
def compress (h : Words8) (block : List Byte) : Words8 :=
  feedForward h (rounds (kTable.zip (schedule block)) h)

/-- `perform(INIT)` (R131). -/
def performInit (s : State) : State := finish { s with h := some ivWords, phase := .absorbing }

/-- INIT (R131). -/
def execInit (s : State) : Host.Outcome State Fault Refusal :=
  if s.busy then .next (performInit s) else .next (issue .init s)

/-- `perform(ABSORB)` (R132). -/
def performAbsorb (s : State) : Host.Outcome State Fault Refusal :=
  match s.h, s.block with
  | some h, some block =>
    match s.phase.afterAbsorb with
    | some phase => .next (finish { s with h := some (compress h block), phase := phase })
    | none => .fault .noNextPhase
  | _, _ => .fault .undefinedOperand

/-- ABSORB (R132). -/
def execAbsorb (s : State) : Host.Outcome State Fault Refusal :=
  if s.busy then performAbsorb s else .next (issue .absorb s)

end Sys2Proof.Machine
end

