-- ==== Sys2Proof/Machine/Digest.lean ====
section
/-! DEFINITION. The commands EXTRACT and CLEAR (43_digest.md). While BUSY = 0 a command's meaning is its issue half,
while BUSY = 1 it is the core's `perform` (41_compression.md R130). -/

namespace Sys2Proof.Machine

/-- `perform(EXTRACT)` (43_digest.md R171). -/
def performExtract (s : State) : Host.Outcome State Fault Refusal :=
  match s.h with
  | some h => .next (finish { s with mem := s.mem.writeBytes digBase h.digest, digValid := true })
  | none => .fault .undefinedOperand

/-- EXTRACT (R171). -/
def execExtract (s : State) : Host.Outcome State Fault Refusal :=
  if s.busy then performExtract s else .next (issue .extract s)

/-- `perform(CLEAR)` (R172): the write always happens. -/
def performClear (s : State) : State := finish { s with h := some zeroWords, phase := .cleared }

/-- CLEAR (R172). -/
def execClear (s : State) : Host.Outcome State Fault Refusal :=
  if s.busy then .next (performClear s) else .next (issue .clear s)

end Sys2Proof.Machine
end

