-- ==== Sys2Proof/Machine/Padding.lean ====
section
/-! DEFINITION. The padding state machine: the commands PAD and PADNULL (42_padding.md). While BUSY = 0 a command's
meaning is its issue half, while BUSY = 1 it is the core's `perform` (41_compression.md R130). -/

namespace Sys2Proof.Machine

/-- What Shape A writes from BLK[len] on, for len ≤ 55: 0x80, zeros up to BLK[55], then L big-endian (42_padding.md
R152, 20_memory.md R62). -/
def padShapeA (len : Nat) (l : BitVec 64) : List Byte := 0x80 :: (List.replicate (55 - len) 0x00 ++ bytesBE64 l)

/-- What Shape B writes from BLK[len] on, for 56 ≤ len ≤ 63: 0x80, then zeros up to BLK[63] (R152). -/
def padShapeB (len : Nat) : List Byte := 0x80 :: List.replicate (63 - len) 0x00

/-- What Shape C writes from BLK[0] on: 56 zeros, then L big-endian (R153). -/
def padShapeC (l : BitVec 64) : List Byte := List.replicate 56 0x00 ++ bytesBE64 l

/-- `perform(PAD len)` (R152). MLEN is an operand in both shapes (R159). -/
def performPad (len : Fin 64) (s : State) : Host.Outcome State Fault Refusal :=
  match s.mlen with
  | some n =>
    if shapeA len then
      .next (finish { s with
        mem := s.mem.writeBytes (blkBase + len.val) (padShapeA len.val (bitCount n))
        complete := true
        phase := .paddedFinal })
    else
      .next (finish { s with
        mem := s.mem.writeBytes (blkBase + len.val) (padShapeB len.val)
        complete := false
        phase := .paddedMore })
  | none => .fault .undefinedOperand

/-- PAD len (R152). -/
def execPad (len : Fin 64) (s : State) : Host.Outcome State Fault Refusal :=
  if s.busy then performPad len s else .next (issue (.pad len) s)

/-- `perform(PADNULL)` (R153). -/
def performPadnull (s : State) : Host.Outcome State Fault Refusal :=
  match s.mlen with
  | some n =>
    .next (finish { s with
      mem := s.mem.writeBytes blkBase (padShapeC (bitCount n))
      complete := true
      phase := .paddedFinal })
  | none => .fault .undefinedOperand

/-- PADNULL (R153). -/
def execPadnull (s : State) : Host.Outcome State Fault Refusal :=
  if s.busy then performPadnull s else .next (issue .padnull s)

end Sys2Proof.Machine
end

