-- ==== Sys2Proof/Machine/Dispatch.lean ====
section
/-! DEFINITION. One arm per command. -/

namespace Sys2Proof.Machine

def exec (i : Instr) (s : State) : Host.Outcome State Fault Refusal :=
  match i with
  | .init => Sys2Proof.Machine.execInit s
  | .absorb => Sys2Proof.Machine.execAbsorb s
  | .pad len => Sys2Proof.Machine.execPad len s
  | .padnull => Sys2Proof.Machine.execPadnull s
  | .extract => Sys2Proof.Machine.execExtract s
  | .clear => Sys2Proof.Machine.execClear s

end Sys2Proof.Machine
end

