-- ==== Sys2Proof/Machine/Port.lean ====
section
/-! DEFINITION. The host port (20_memory.md, 43_digest.md R173–R179), the checks of a host access (60_exceptions.md
R202, R206), and whose turn it is (20_memory.md R70, 70_reset_and_hazards.md R230, R234). -/

namespace Sys2Proof.Machine

/-- `legal(off, w, dir)` (20_memory.md R52). -/
def HostAccess.legal (acc : HostAccess) : Bool :=
  (acc.off == 0x00 && acc.width == .w32 && acc.dir == .write)
    || ((acc.off == 0x04 || acc.off == 0x08 || acc.off == 0x0C) && acc.width == .w32 && acc.dir == .read)
    || ((acc.off == 0x10 || acc.off == 0x14) && acc.width == .w32)
    || (decide (0x40 ≤ acc.off.toNat) && decide (acc.off.toNat ≤ 0x7F) && acc.width == .w8)
    || (decide (0x80 ≤ acc.off.toNat) && decide (acc.off.toNat ≤ 0x9F) && acc.width == .w8 && acc.dir == .read)

/-- The byte that an 8-bit write carries (R50). -/
def HostAccess.byteData (acc : HostAccess) : Byte := acc.data.extractLsb' 0 8

/-- The row of the address map (20_memory.md R51) that a legal access matches; used only where `legal` holds. -/
def HostAccess.op (acc : HostAccess) : PortOp :=
  match acc.width, acc.dir with
  | .w32, .read =>
    if acc.off = 0x04 then .readStatus
    else if acc.off = 0x08 then .readFinfo0
    else if acc.off = 0x0C then .readFinfo1
    else if acc.off = 0x10 then .readMlenLo
    else .readMlenHi
  | .w32, .write =>
    if acc.off = 0x00 then .writeCmd acc.data
    else if acc.off = 0x10 then .writeMlenLo acc.data
    else .writeMlenHi acc.data
  | .w8, .read => if acc.off.toNat < digBase then .readBlk acc.off.toNat else .readDig acc.off.toNat
  | .w8, .write => .writeBlk acc.off.toNat acc.byteData

/-- A 32-bit read of STATUS, FINFO0 or FINFO1: legal while BUSY = 1 and after a fault (R57, R58; R202, R206). -/
def HostAccess.readsStatus (acc : HostAccess) : Bool :=
  acc.width == .w32 && acc.dir == .read && (acc.off == 0x04 || acc.off == 0x08 || acc.off == 0x0C)

/-- The access returns `r` to the host and has no other side effect (R65). -/
def answer (r : Reply) (s : State) : State := { s with reply := r }

/-- A CMD write (43_digest.md R179, 60_exceptions.md R203): the word is decoded; a word that is no command is a fault,
a command has its meaning. -/
def writeCmd (acc : HostAccess) (w : Word) (s : State) : Host.Outcome State Fault Refusal :=
  match decode w with
  | .error _ => .next (raiseFault .illegalCommand acc s)
  | .ok i => exec i (answer .silent s)

/-- A read of a register half or a buffer byte: the value where it is defined, UNDEFINED_READ where it is not (R202). -/
def readOrFault (acc : HostAccess) (v : Option Reply) (s : State) : State :=
  match v with
  | some r => answer r s
  | none => raiseFault .undefinedRead acc s

/-- The last match of `access` (60_exceptions.md R202): a legal access, FAULT = 0, not CONCURRENT. -/
def performAccess (acc : HostAccess) (s : State) : Host.Outcome State Fault Refusal :=
  match acc.op with
  | .writeCmd w => writeCmd acc w s
  | .readStatus => .next (answer (.word s.status) s)
  | .readFinfo0 => .next (answer (.word s.finfo0) s)
  | .readFinfo1 => .next (answer (.word s.finfo1) s)
  | .readMlenLo => .next (readOrFault acc (s.mlenLo.map .word) s)
  | .readMlenHi => .next (readOrFault acc (s.mlenHi.map .word) s)
  | .writeMlenLo v => .next (answer .silent { s with mlenLo := some v })
  | .writeMlenHi v => .next (answer .silent { s with mlenHi := some v })
  | .readBlk off => .next (readOrFault acc ((s.mem.read off).map .byte) s)
  | .writeBlk off v =>
    if s.phase.holdsPaddedBlock then .next (raiseFault .bufferHazard acc s)
    else .next (answer .silent { s with mem := s.mem.write off v })
  | .readDig off => .next (readOrFault acc (if s.digValid then (s.mem.read off).map .byte else none) s)

/-- An access in the faulted state (60_exceptions.md R206): a read of STATUS, FINFO0 or FINFO1 returns the register,
every other access has no effect, and a read returns an unspecified value. -/
def faultedAccess (acc : HostAccess) (s : State) : State :=
  if acc.readsStatus then
    if acc.off = 0x04 then answer (.word s.status) s
    else if acc.off = 0x08 then answer (.word s.finfo0) s
    else answer (.word s.finfo1) s
  else { s with reply := acc.unspecifiedReply s.fresh, fresh := s.fresh + 1 }

/-- `access(acc)` (60_exceptions.md R202): the checks of every host access in their order. -/
def access (acc : HostAccess) (s : State) : Host.Outcome State Fault Refusal :=
  if s.fault then .next (faultedAccess acc s)
  else if !acc.legal then .next (raiseFault .badAccess acc s)
  else if s.busy && !acc.readsStatus then .next (raiseFault .concurrent acc s)
  else performAccess acc s

/-- The core's turn (70_reset_and_hazards.md R234): the core step where BUSY = 1 and FAULT = 0, otherwise nothing. -/
def coreTurn (s : State) : Host.Outcome State Fault Refusal :=
  if s.busy && !s.fault then
    match s.pending with
    | some i => exec i s
    | none => .fault .noPendingCommand
  else .next s

/-- What one input does, in the state it has been taken from. -/
def handle (e : Input) (s : State) : Host.Outcome State Fault Refusal :=
  match e with
  | .access acc => access acc s
  | .core => coreTurn s
  | .rst => .next (hardwareReset s)
  | .secondHost _ => .refused .secondHost

/-- The state once its first input is taken off the list. -/
def dropInput (s : State) : State := { s with inputs := s.inputs.tail }

/-- One turn: the first pending input; with none pending the host is silent and the core has the turn, so that an
accepted command is performed (70_reset_and_hazards.md R241). -/
def turn (s : State) : Host.Outcome State Fault Refusal :=
  match s.inputs with
  | [] => coreTurn s
  | e :: _ => handle e (dropInput s)

/-- The state in which the host is about to write the word `w` to CMD and the block is free to take it: BUSY = 0 and
FAULT = 0 (log entry 6). -/
def placeCommand (w : Word) (s : State) : State :=
  { s with
    inputs := .access (cmdWrite w) :: s.inputs
    busy := false
    pending := none
    fault := false
    fcode := 0
    finfo0 := 0
    finfo1 := 0 }

end Sys2Proof.Machine
end

