-- ==== Sys2Proof/Machine/Step.lean ====
section
/-! DEFINITION. One step of the machine, and where the host's next command word stands. -/

namespace Sys2Proof.Machine

/-- One step: one host access, one core turn or one reset (20_memory.md R69, R70). -/
def step (s : State) : Host.Outcome State Fault Refusal := turn s

/-- The table word `w` of `nbits` bits as the next access of the host: a write to CMD, the only way a command comes to
the block (20_memory.md R73; log entry 6). -/
def State.withFetchWord (s : State) (nbits w : Nat) : State := placeCommand (BitVec.ofNat 32 (w % 2 ^ nbits)) s

end Sys2Proof.Machine
end

