-- ==== Sys2Proof/Machine/Platform.lean ====
section
/-! DEFINITION. A platform with several blocks (60_exceptions.md R216, 92_eei_decisions.md D33): every instance has a
state of its own and shares none of it. PORT_BASE and INSTANCES are the platform's (20_memory.md R67). -/

namespace Sys2Proof.Machine

/-- One instance: where its port's offset 0 sits in the host's address space (PORT_BASE), and its state. -/
structure PortedBlock where
  base : Nat
  block : State
deriving DecidableEq, Repr

/-- The instances of a platform. -/
abbrev Platform := List PortedBlock

/-- INSTANCES ≥ 1, and the PORT_BASEs are pairwise distinct (92_eei_decisions.md, "Open parameters"). -/
def Platform.wf (p : Platform) : Bool := !p.isEmpty && decide (p.Pairwise fun a b => a.base ≠ b.base)

/-- The platform after reset: the instances start together (R216), at the bases the platform gives them. -/
def Platform.start (bases : List Nat) : Platform := bases.map fun b => ⟨b, State.reset⟩

/-- The port offset that an address of the host's reaches in an instance, `none` outside its 256 offsets (20_memory.md
R50, R67). -/
def PortedBlock.offset (b : PortedBlock) (address : Nat) : Option (BitVec 8) :=
  if b.base ≤ address ∧ address < b.base + 256 then some (BitVec.ofNat 8 (address - b.base)) else none

/-- An access that the host makes at an address, given to the instances whose port it reaches. -/
def Platform.request (p : Platform) (address : Nat) (w : Width) (d : Dir) (v : Word) : Platform :=
  p.map fun b =>
    match b.offset address with
    | some off => { b with block := { b.block with inputs := b.block.inputs ++ [.access ⟨off, w, d, v⟩] } }
    | none => b

/-- One step of the k-th instance; the others stay as they are (R216: "no inter-instance signal"). -/
def Platform.step : Platform → Nat → Host.Outcome Platform Fault Refusal
  | [], _ => .next []
  | b :: p, 0 =>
    match Sys2Proof.Machine.step b.block with
    | .next t => .next ({ b with block := t } :: p)
    | .fault f => .fault f
    | .refused r => .refused r
  | b :: p, k + 1 =>
    match Platform.step p k with
    | .next q => .next (b :: q)
    | .fault f => .fault f
    | .refused r => .refused r

/-- An interleaving: the instances step in the order the list names them. -/
def Platform.run : List Nat → Platform → Host.Outcome Platform Fault Refusal
  | [], p => .next p
  | k :: ks, p =>
    match Platform.step p k with
    | .next q => Platform.run ks q
    | .fault f => .fault f
    | .refused r => .refused r

end Sys2Proof.Machine
end

