-- ==== Sys2Proof/Machine/Message.lean ====
section
/-! DEFINITION. SHA-256 of a whole message as the spec's rules define it: the padded message cut into blocks
(42_padding.md R160) and the blocks absorbed in order (41_compression.md R139). The machine does not use this file; claims
about what a sequence of commands computes do. -/

namespace Sys2Proof.Machine

/-- compress(… compress(compress(h, B1), B2) …, Bn) (R139). -/
def absorbBlocks : Words8 → List (List Byte) → Words8
  | h, [] => h
  | h, b :: bs => absorbBlocks (compress h b) bs

/-- The first `q` blocks of 64 bytes. -/
def cutBlocks : Nat → List Byte → List (List Byte)
  | 0, _ => []
  | q + 1, m => m.take 64 :: cutBlocks q (m.drop 64)

/-- The least z with (n + 1 + z + 8) mod 64 = 0 (R160). -/
def zeroCount (n : Nat) : Nat := (119 - n % 64) % 64

/-- m, then 0x80, then z zero bytes, then bytesBE_64(8n) (R160). -/
def paddedMessage (m : List Byte) : List Byte :=
  m ++ 0x80 :: (List.replicate (zeroCount m.length) 0x00 ++ bytesBE64 (bitCount (BitVec.ofNat 64 m.length)))

/-- The state words after every block of the padded message (R160). -/
def sha256Words (m : List Byte) : Words8 :=
  absorbBlocks ivWords (cutBlocks ((paddedMessage m).length / 64) (paddedMessage m))

/-- The 32-byte digest of a message (43_digest.md R180). -/
def sha256 (m : List Byte) : List Byte := (sha256Words m).digest

end Sys2Proof.Machine
end

