-- ==== Sys2Proof/Machine/Script.lean ====
section
/-! DEFINITION. The host's side: host scripts and their pseudo-instructions (30_encoding.md R90–R94, 43_digest.md R180),
and a host that runs a script against a block. The block itself knows nothing of scripts (10_state.md R33). -/

namespace Sys2Proof.Machine

/-! ## Script lines (R90) -/

/-- Names of host variables: `s` of RDSTATUS and WAIT, `d[i]` of READDIG, and the script's own. -/
inductive HostVar where
  | status
  | digest (i : Nat)
  | own (n : Nat)
deriving DecidableEq, Repr

/-- The primitive lines of R90. A condition reads one bit of a host variable. -/
inductive Line where
  | wr32 (off : BitVec 8) (v : Word)
  | rd32 (off : BitVec 8) (x : HostVar)
  | wr8 (off : BitVec 8) (v : Byte)
  | rd8 (off : BitVec 8) (x : HostVar)
  | issue (i : Instr)
  | label (l : Nat)
  | ifGoto (x : HostVar) (bit : Nat) (value : Bool) (l : Nat)
deriving DecidableEq, Repr

/-- The host access a line makes, `none` for host-side control flow (R90). -/
def Line.hostAccess : Line → Option HostAccess
  | .wr32 off v => some ⟨off, .w32, .write, v⟩
  | .rd32 off _ => some ⟨off, .w32, .read, 0⟩
  | .wr8 off v => some ⟨off, .w8, .write, v.zeroExtend 32⟩
  | .rd8 off _ => some ⟨off, .w8, .read, 0⟩
  | .issue i => some (cmdWrite (encode i))
  | .label _ | .ifGoto _ _ _ _ => none

/-! ## Pseudo-instructions (R91–R94, R180) -/

/-- SETLEN n (R91). -/
def setLen (n : BitVec 64) : List Line := [.wr32 0x10 (n.extractLsb' 0 32), .wr32 0x14 (n.extractLsb' 32 32)]

/-- RDSTATUS -> x (R93). -/
def rdStatus (x : HostVar) : List Line := [.rd32 0x04 x]

/-- WAIT, with the label it uses (R92). -/
def wait (l : Nat) : List Line := [.label l, .rd32 0x04 .status, .ifGoto .status 0 true l]

/-- A bare command: ISSUE followed by WAIT (R92). -/
def command (l : Nat) (i : Instr) : List Line := .issue i :: wait l

/-- LOADBLK off; b0 … b(k−1) (R93). -/
def loadBlk : Nat → List Byte → List Line
  | _, [] => []
  | off, b :: bs => .wr8 (BitVec.ofNat 8 (blkBase + off)) b :: loadBlk (off + 1) bs

/-- R93: LOADBLK's bytes fit the block. A line that does not meet this is none of R93's. -/
def loadBlkFits (off : Nat) (bs : List Byte) : Bool := off + bs.length ≤ 64

/-- READDIG -> d (R93). -/
def readDig : List Line := (List.range 32).map fun i => .rd8 (BitVec.ofNat 8 (digBase + i)) (.digest i)

/-- The loop of COMPUTE over the full blocks (R180). -/
def computeBlocks : Nat → List (List Byte) → List Line
  | _, [] => []
  | l, b :: bs => loadBlk 0 b ++ command l .absorb ++ computeBlocks (l + 1) bs

/-- LEN of COMPUTE's PAD: r = n mod 64. -/
def tailLength (m : List Byte) : Fin 64 := ⟨m.length % 64, Nat.mod_lt _ (by decide)⟩

/-- COMPUTE m (R180). Labels 0 to q + 6 are the WAITs', label q + 7 is `fin`. -/
def compute (m : List Byte) : List Line :=
  let q := m.length / 64
  setLen (BitVec.ofNat 64 m.length) ++ command 0 .init ++ computeBlocks 1 (cutBlocks q m)
    ++ loadBlk 0 (m.drop (64 * q)) ++ command (q + 1) (.pad (tailLength m)) ++ rdStatus .status
    ++ [.ifGoto .status 1 true (q + 7)] ++ command (q + 2) .absorb ++ command (q + 3) .padnull
    ++ [.label (q + 7)] ++ command (q + 4) .absorb ++ command (q + 5) .extract ++ readDig ++ command (q + 6) .clear

/-! ## A host that runs a script -/

/-- The host agent: its script, its position in it (10_state.md R33: "the host's own state") and its variables. -/
structure HostAgent where
  script : List Line
  position : Nat
  vars : List (HostVar × Word)
deriving DecidableEq, Repr

/-- A host and the block it drives. -/
structure System where
  host : HostAgent
  block : State
deriving DecidableEq, Repr

/-- The value of a host variable, `none` before its first assignment. -/
def lookupVar (x : HostVar) : List (HostVar × Word) → Option Word
  | [] => none
  | (y, v) :: vs => if x = y then some v else lookupVar x vs

/-- The position of a label in a script. DESIGN CHOICE (log entry 13; R90 is silent): of a label that stands more than once
the first line counts, and a label that is missing ends the script. -/
def labelAt (l : Nat) : List Line → Nat
  | [] => 0
  | .label k :: ls => if k = l then 0 else labelAt l ls + 1
  | _ :: ls => labelAt l ls + 1

/-- The value a reply gives a host variable; that a byte is held zero-extended is a DESIGN CHOICE (log entry 13). -/
def Reply.value : Reply → Option Word
  | .silent => none
  | .byte v => some (v.zeroExtend 32)
  | .word v => some v

/-- The host after a port line: the next line, and the variable a read assigns. -/
def HostAgent.advance (g : HostAgent) (x : Option HostVar) (r : Reply) : HostAgent :=
  match x, r.value with
  | some x, some v => { g with position := g.position + 1, vars := (x, v) :: g.vars }
  | _, _ => { g with position := g.position + 1 }

/-- The variable a line assigns. -/
def Line.target : Line → Option HostVar
  | .rd32 _ x | .rd8 _ x => some x
  | .wr32 _ _ | .wr8 _ _ | .issue _ | .label _ | .ifGoto _ _ _ _ => none

/-- The host's next line (20_memory.md R69: one access at a time, each complete before the next). DESIGN CHOICE (log entry
13; R90 is silent): a condition on a variable that was never assigned does not hold, for either value it may ask for, so
the host goes on with the next line; behind its last line the host does nothing. -/
def System.hostTurn (y : System) : Host.Outcome System Fault Refusal :=
  match y.host.script[y.host.position]? with
  | none => .next y
  | some line =>
    match line.hostAccess with
    | some acc =>
      match step { y.block with inputs := .access acc :: y.block.inputs } with
      | .next t => .next ⟨y.host.advance line.target t.reply, t⟩
      | .fault f => .fault f
      | .refused r => .refused r
    | none =>
      match line with
      | .ifGoto x bit value l =>
        if (lookupVar x y.host.vars).map (·.getLsbD bit) = some value then
          .next { y with host := { y.host with position := labelAt l y.host.script } }
        else .next { y with host := { y.host with position := y.host.position + 1 } }
      | _ => .next { y with host := { y.host with position := y.host.position + 1 } }

/-- The core's turn between two lines (20_memory.md R70). -/
def System.coreTurn (y : System) : Host.Outcome System Fault Refusal :=
  match step { y.block with inputs := .core :: y.block.inputs } with
  | .next t => .next { y with block := t }
  | .fault f => .fault f
  | .refused r => .refused r

/-- The two agents (92_eei_decisions.md D2). -/
inductive Agent where
  | host | core
deriving DecidableEq, Repr

/-- An interleaving of the host's lines with the core's turns (R70: the core step falls at any point after the CMD
write). -/
def System.run : List Agent → System → Host.Outcome System Fault Refusal
  | [], y => .next y
  | a :: as, y =>
    match (match a with | .host => y.hostTurn | .core => y.coreTurn) with
    | .next z => System.run as z
    | .fault f => .fault f
    | .refused r => .refused r

/-! ## Interleavings of a script with the core's turns -/

/-- The turns of one bare command: ISSUE, any number of rounds of WAIT that read BUSY = 1, the core's turn, and the round
that reads BUSY = 0. -/
def commandOrder (polls : Nat) : List Agent :=
  .host :: ((List.replicate polls [Agent.host, .host, .host]).flatten ++ [.core, .host, .host, .host])

/-- The turns of COMPUTE's loop over `n` full blocks, from the k-th command on. -/
def computeBlockOrder (polls : Nat → Nat) : Nat → Nat → List Agent
  | _, 0 => []
  | k, n + 1 => List.replicate 64 .host ++ commandOrder (polls k) ++ computeBlockOrder polls (k + 1) n

/-- The turns of COMPUTE m; the k-th command's WAIT reads BUSY = 1 `polls k` times. -/
def computeOrder (polls : Nat → Nat) (m : List Byte) : List Agent :=
  let q := m.length / 64
  [.host, .host] ++ commandOrder (polls 0) ++ computeBlockOrder polls 1 q ++ List.replicate (m.length % 64) .host
    ++ commandOrder (polls (q + 1)) ++ [.host, .host]
    ++ (if shapeA (tailLength m) then [] else commandOrder (polls (q + 2)) ++ commandOrder (polls (q + 3)))
    ++ [.host] ++ commandOrder (polls (q + 4)) ++ commandOrder (polls (q + 5)) ++ List.replicate 32 .host
    ++ commandOrder (polls (q + 6))

/-! ## COMPUTE as the block sees it -/

/-- The host's poll of STATUS. -/
def statusRead : HostAccess := ⟨0x04, .w32, .read, 0⟩

/-- One bare command at the port (R92): the CMD write, any number of polls that read BUSY = 1, the core step, and the
poll that reads BUSY = 0. -/
def commandInputs (polls : Nat) (i : Instr) : List Input :=
  .access (cmdWrite (encode i)) :: (List.replicate polls (.access statusRead) ++ [.core, .access statusRead])

/-- The accesses of script lines without control flow. -/
def lineInputs (ls : List Line) : List Input := ls.filterMap fun l => l.hostAccess.map .access

/-- The accesses of COMPUTE's loop (R180); the k-th command is polled `polls k` times before its core step. -/
def computeBlockInputs (polls : Nat → Nat) : Nat → List (List Byte) → List Input
  | _, [] => []
  | k, b :: bs =>
    lineInputs (loadBlk 0 b) ++ commandInputs (polls k) .absorb ++ computeBlockInputs polls (k + 1) bs

/-- What the block sees of COMPUTE m (R180), for any number of polls before each core step: the branch on COMPLETE is
taken iff n mod 64 ≤ 55 (42_padding.md R162). -/
def computeInputs (polls : Nat → Nat) (m : List Byte) : List Input :=
  let q := m.length / 64
  lineInputs (setLen (BitVec.ofNat 64 m.length)) ++ commandInputs (polls 0) .init
    ++ computeBlockInputs polls 1 (cutBlocks q m) ++ lineInputs (loadBlk 0 (m.drop (64 * q)))
    ++ commandInputs (polls (q + 1)) (.pad (tailLength m)) ++ lineInputs (rdStatus .status)
    ++ (if shapeA (tailLength m) then []
        else commandInputs (polls (q + 2)) .absorb ++ commandInputs (polls (q + 3)) .padnull)
    ++ commandInputs (polls (q + 4)) .absorb ++ commandInputs (polls (q + 5)) .extract ++ lineInputs readDig
    ++ commandInputs (polls (q + 6)) .clear

end Sys2Proof.Machine
end

