-- ==== Sys2Proof/Safety.lean ====
section
/-! DEFINITION. What counts as a safe state and a safe run, in the terms the statements use. -/

namespace Sys2Proof.Machine

/-- The block waits for the host: no command in progress, no fault (60_exceptions.md R218). -/
def State.idle (s : State) : Prop := s.busy = false ∧ s.fault = false

/-- The invariant of every reachable state (10_state.md R27 to R41, 42_padding.md R155). -/
structure State.Inv (s : State) : Prop where
  /-- The buffers are in canonical form. -/
  memWf : s.mem.wf = true
  /-- PENDING holds a command exactly while BUSY = 1 (R36). -/
  busyIffPending : s.busy = s.pending.isSome
  /-- H = ⊥ is equivalent to PHASE = UNINIT (R41). -/
  hashUndefinedIff : s.h = none ↔ s.phase = .uninit
  /-- Every digest byte is defined iff DIG_VALID = 1, and none is while DIG_VALID = 0 (R28, R29). -/
  digestDefined : ∀ a, digBase ≤ a → a < bufferEnd → (s.mem.read a).isSome = s.digValid
  /-- FAULT = 0: no record (R37). -/
  noRecord : s.fault = false → s.fcode = 0 ∧ s.finfo0 = 0 ∧ s.finfo1 = 0
  /-- FAULT = 1: a code in 1..7, and FINFO1 marked valid with its reserved bits 0 (R37, 60_exceptions.md R201). -/
  record : s.fault = true →
    1 ≤ s.fcode.toNat ∧ s.fcode.toNat ≤ 7 ∧ s.finfo1.getLsbD 31 = true ∧ s.finfo1.extractLsb' 10 21 = 0
  /-- A faulted block performs nothing (60_exceptions.md R205, R206). -/
  faultedIdle : s.fault = true → s.busy = false
  /-- A pending command passed every issue check, and they still hold (70_reset_and_hazards.md R240). -/
  pendingAccepted : ∀ i, s.pending = some i → issueFault i s = none
  /-- COMPLETE and PHASE agree while a pad's outcome matters (42_padding.md R155). -/
  completeSet : s.phase = .paddedFinal ∨ s.phase = .done → s.complete = true
  completeClear : s.phase = .paddedMore ∨ s.phase = .needNull → s.complete = false
  /-- CLEARED: H = 0 (R34), unless a fault made H unspecified. -/
  clearedZero : s.phase = .cleared → s.fault = false → s.h = some zeroWords
  /-- 1 ≤ MAX_MSG_BYTES ≤ 2^61 (92_eei_decisions.md D10). -/
  paramRange : 1 ≤ s.maxMsgBytes ∧ s.maxMsgBytes ≤ Config.maxMsgBytesLimit

/-- Fault entry as 60_exceptions.md R201 and R205 describe it, between the state before the faulting access and the state
after it: what is recorded, what is abandoned, and what stays. H, BLK and DIG are unspecified, so nothing is said of
them here. -/
structure FaultEntered (code : Nat) (acc : HostAccess) (s t : State) : Prop where
  fault : t.fault = true
  fcode : t.fcode.toNat = code
  finfo0 : t.finfo0.toNat =
    match acc.dir, acc.width with
    | .write, .w32 => acc.data.toNat
    | .write, .w8 => acc.data.toNat % 2 ^ 8
    | .read, _ => 0
  finfo1 : t.finfo1.toNat = 2 ^ 31 + (if acc.width = .w32 then 2 ^ 9 else 0) + (if acc.dir = .write then 2 ^ 8 else 0)
    + acc.off.toNat
  abandoned : t.busy = false ∧ t.pending = none
  phase : t.phase = s.phase
  complete : t.complete = s.complete
  digValid : t.digValid = s.digValid
  mlenLo : t.mlenLo = s.mlenLo
  mlenHi : t.mlenHi = s.mlenHi
  writeSilent : acc.dir = .write → t.reply = .silent
  param : t.maxMsgBytes = s.maxMsgBytes

/-- Two states of one block agree on every piece of state that the spec gives the machine (10_state.md R20). -/
structure SameBlock (s t : State) : Prop where
  h : t.h = s.h
  mem : t.mem = s.mem
  digValid : t.digValid = s.digValid
  mlenLo : t.mlenLo = s.mlenLo
  mlenHi : t.mlenHi = s.mlenHi
  phase : t.phase = s.phase
  complete : t.complete = s.complete
  busy : t.busy = s.busy
  pending : t.pending = s.pending
  fault : t.fault = s.fault
  fcode : t.fcode = s.fcode
  finfo0 : t.finfo0 = s.finfo0
  finfo1 : t.finfo1 = s.finfo1
  param : t.maxMsgBytes = s.maxMsgBytes

/-- A run of `k` steps is safe if it ends in a state without a fault (60_exceptions.md R206: "every claim takes FAULT = 0
at the end as a premise"). -/
def SafeRun (k : Nat) (s t : State) : Prop := Host.Core.run Sys2Proof.core k s = .next t ∧ t.fault = false

/-- The next input is not an access of a second host, which is outside the model (20_memory.md R72). -/
def State.oneHost (s : State) : Prop := ∀ acc rest, s.inputs ≠ .secondHost acc :: rest

end Sys2Proof.Machine
end

