-- ==== Sys2Proof/Certificates/Slice0/Obligations.lean ====
section
/-! DEFINITION. The statements for the provers. Each docstring names the rule of spec/ it formalises. -/

open Sys2Proof Sys2Proof.Machine

/-! ## Encoding (30_encoding.md) -/

/-- R84, R85: a word decodes to a command iff it is that command's encoding. -/
def Obligations.DecodeAndEncodeAgree : Prop :=
  ∀ (w : Word) (i : Instr), decode w = .ok i ↔ w = encode i

/-- R84: a word decodes to a command of a mnemonic iff it selects that row of the opcode map, `(w ∧ mask) = match`; the
full word of PAD len is 0x00000003 + len·0x100; at most one row matches a word. -/
def Obligations.DecoderFollowsTheOpcodeMap : Prop :=
  ∀ w : Word,
    ((∃ i, decode w = .ok i ∧ i.mnemonic = .init) ↔ w &&& 0xFFFFFFFF = 0x00000001) ∧
    ((∃ i, decode w = .ok i ∧ i.mnemonic = .absorb) ↔ w &&& 0xFFFFFFFF = 0x00000002) ∧
    ((∃ i, decode w = .ok i ∧ i.mnemonic = .pad) ↔ w &&& 0xFFFFC0FF = 0x00000003) ∧
    ((∃ i, decode w = .ok i ∧ i.mnemonic = .padnull) ↔ w &&& 0xFFFFFFFF = 0x00000004) ∧
    ((∃ i, decode w = .ok i ∧ i.mnemonic = .extract) ↔ w &&& 0xFFFFFFFF = 0x00000005) ∧
    ((∃ i, decode w = .ok i ∧ i.mnemonic = .clear) ↔ w &&& 0xFFFFFFFF = 0x00000006) ∧
    (∀ len : Fin 64, w.toNat = 0x00000003 + len.val * 0x100 → decode w = .ok (.pad len)) ∧
    (∀ r ∈ opcodeMap, ∀ r' ∈ opcodeMap, r.selects w = true → r'.selects w = true → r = r')

/-- R86: exactly these words are illegal (RSV ≠ 0; OPC 0x00 or 0x07..0xFF; LEN ≠ 0 in a command other than PAD), and
writing one to CMD raises ILLEGAL_COMMAND with no other effect. -/
def Obligations.IllegalWordsRaiseIllegalCommand : Prop :=
  ∀ w : Word,
    ((∃ e, decode w = .error e) ↔
      w.toNat / 2 ^ 14 ≠ 0 ∨ w.toNat % 2 ^ 8 = 0 ∨ 7 ≤ w.toNat % 2 ^ 8 ∨
        (w.toNat % 2 ^ 8 ≠ 3 ∧ w.toNat / 2 ^ 8 % 2 ^ 6 ≠ 0)) ∧
    (∀ (s : State) (rest : List Input), s.inputs = .access (cmdWrite w) :: rest → s.fault = false → s.busy = false →
      (∃ e, decode w = .error e) → ∃ t, step s = .next t ∧ t.inputs = rest ∧ FaultEntered 1 (cmdWrite w) s t)

/-- R85: exactly 69 words decode to a command. -/
def Obligations.ExactlySixtyNineWordsDecode : Prop :=
  ∃ l : List Word, l.Nodup ∧ l.length = 69 ∧ ∀ w : Word, w ∈ l ↔ ∃ i, decode w = .ok i

/-- 95_test_vectors.md §2.11: words written out from the spec decode as it says. -/
def Obligations.WrittenOutWordsDecode : Prop :=
  decode 0x00000001 = .ok .init ∧ decode 0x00000002 = .ok .absorb ∧ decode 0x00000303 = .ok (.pad 3) ∧
  decode 0x00003f03 = .ok (.pad 63) ∧ decode 0x00000004 = .ok .padnull ∧ decode 0x00000005 = .ok .extract ∧
  decode 0x00000006 = .ok .clear ∧ decode 0x00000000 = .error .unknownOpcode ∧
  decode 0x00004003 = .error .reservedBits ∧ decode 0x00000104 = .error .lenNotZero

/-- R89: a line assembles iff it has its mnemonic's number of operands, each in 0..63; the command it gives has the line's
mnemonic, and PAD's operand is the LEN of the word, 0x00000003 + len·0x100. -/
def Obligations.AssemblerAcceptsExactlyTheWellFormedLines : Prop :=
  ∀ l : AsmLine,
    ((∃ i, l.assemble = some i) ↔
      (l.mnemonic = .pad ∧ ∃ n, n < 64 ∧ l.operands = [n]) ∨ (l.mnemonic ≠ .pad ∧ l.operands = [])) ∧
    (l.wellFormed = true ↔ ∃ i, l.assemble = some i) ∧
    (∀ i, l.assemble = some i → i.mnemonic = l.mnemonic ∧
      (∀ n, l.operands = [n] → (encode i).toNat = 3 + n * 0x100))

/-! ## What a step runs (70_reset_and_hazards.md R234, 43_digest.md R179) -/

/-- A CMD write in an unfaulted block with BUSY = 0 runs the decoded command (its issue half), and `withFetchWord` sets
that write up in every state (what it clears for that is the model's choice, log entry 6). -/
def Obligations.StepRunsTheWrittenCommand : Prop :=
  (∀ (s : State) (rest : List Input) (w : Word) (i : Instr),
    s.inputs = .access (cmdWrite w) :: rest → s.fault = false → s.busy = false → decode w = .ok i →
      step s = exec i { s with inputs := rest, reply := .silent }) ∧
  (∀ (s : State) (nbits w : Nat) (i : Instr), decodeTableWord nbits w = some i →
    step (s.withFetchWord nbits w) =
      exec i { s with
        reply := .silent, busy := false, pending := none, fault := false, fcode := 0, finfo0 := 0, finfo1 := 0 })

/-- R234: the core step is enabled iff BUSY = 1 and FAULT = 0, and then runs the pending command (its perform half). That a
core turn in which it is not enabled changes nothing is the model's reading, DEDUCED from R234, R206 and R218 (log entry
15); that the core has the turn too when no input waits is the model's choice (log entry 1). -/
def Obligations.CoreTurnRunsThePendingCommand : Prop :=
  ∀ (s : State), (s.inputs = [] ∨ ∃ rest, s.inputs = .core :: rest) →
    (∀ i, s.busy = true → s.fault = false → s.pending = some i →
      step s = exec i { s with inputs := s.inputs.tail }) ∧
    (s.busy = false ∨ s.fault = true → step s = .next { s with inputs := s.inputs.tail })

/-! ## Reset (10_state.md R40, 70_reset_and_hazards.md R230) -/

/-- R40: every piece of state after a hardware reset. -/
def Obligations.ResetLeavesTheSpecValues : Prop :=
  State.reset.h = none ∧ (∀ i, i < 64 → State.reset.blkDef i = false) ∧ State.reset.digValid = false ∧
  State.reset.mlenLo = none ∧ State.reset.mlenHi = none ∧ State.reset.phase = .uninit ∧
  State.reset.complete = false ∧ State.reset.busy = false ∧ State.reset.pending = none ∧
  State.reset.fault = false ∧ State.reset.fcode = 0 ∧ State.reset.finfo0 = 0 ∧ State.reset.finfo1 = 0

/-- R230: RST, from every state, busy or faulted, gives every piece of the block's state its reset value. That it keeps
the parameter MAX_MSG_BYTES and the waiting inputs is the model's choice (log entry 14). -/
def Obligations.ResetInputRestoresEveryValue : Prop :=
  ∀ (s : State) (rest : List Input), s.inputs = .rst :: rest →
    ∃ t, step s = .next t ∧ SameBlock { State.reset with maxMsgBytes := s.maxMsgBytes } t ∧ t.inputs = rest

/-! ## The commands' effects: each completes with exactly this next state -/

/-- R131: INIT is accepted in every phase; performed, it loads IV (R111) into H, PHASE becomes ABSORBING and nothing
else changes. -/
def Obligations.InitLoadsTheInitialValues : Prop :=
  ∀ s : State,
    (s.busy = false → exec .init s = .next { s with pending := some .init, busy := true }) ∧
    (s.busy = true → exec .init s = .next { s with
      h := some ⟨0x6a09e667, 0xbb67ae85, 0x3c6ef372, 0xa54ff53a, 0x510e527f, 0x9b05688c, 0x1f83d9ab, 0x5be0cd19⟩
      phase := .absorbing
      busy := false
      pending := none })

/-- R172, R185: CLEAR is accepted in every phase; performed, it zeroes H, PHASE becomes CLEARED and nothing else
changes. -/
def Obligations.ClearZeroesTheStateWords : Prop :=
  ∀ s : State,
    (s.busy = false → exec .clear s = .next { s with pending := some .clear, busy := true }) ∧
    (s.busy = true → exec .clear s = .next { s with
      h := some ⟨0, 0, 0, 0, 0, 0, 0, 0⟩, phase := .cleared, busy := false, pending := none })

/-- R132, R26: ABSORB, performed with H and all 64 bytes of BLK defined in one of its three phases, folds the block into H
and moves PHASE; nothing else changes, BLK included. -/
def Obligations.AbsorbCompressesTheBlock : Prop :=
  ∀ (s : State) (h : Words8) (block : List Byte) (after : Phase),
    s.busy = true → s.h = some h → block.length = 64 → (∀ k, k < 64 → s.mem.read (0x40 + k) = block[k]?) →
    (s.phase, after) ∈ [(.absorbing, .absorbing), (.paddedFinal, .done), (.paddedMore, Phase.needNull)] →
      exec .absorb s = .next { s with
        h := some (compress h block), phase := after, busy := false, pending := none }

/-- R133 to R138: `compress` loads the block's words big-endian, expands the schedule, runs the 64 rounds from H and adds
the working variables back into H. -/
def Obligations.CompressFollowsTheRounds : Prop :=
  ∀ (h : Words8) (block : List Byte), block.length = 64 →
    ∃ (W : Nat → Word) (V : Nat → Words8),
      (∀ i, i < 16 → ∃ b0 b1 b2 b3, block[4 * i]? = some b0 ∧ block[4 * i + 1]? = some b1 ∧
        block[4 * i + 2]? = some b2 ∧ block[4 * i + 3]? = some b3 ∧
        (W i).toNat = b0.toNat * 2 ^ 24 + b1.toNat * 2 ^ 16 + b2.toNat * 2 ^ 8 + b3.toNat) ∧
      (∀ t, 16 ≤ t → t < 64 →
        W t = smallSigma1 (W (t - 2)) + W (t - 7) + smallSigma0 (W (t - 15)) + W (t - 16)) ∧
      V 0 = h ∧
      (∀ t, t < 64 → ∃ k, kTable[t]? = some k ∧
        let T1 := (V t).w7 + bigSigma1 (V t).w4 + ch (V t).w4 (V t).w5 (V t).w6 + k + W t
        let T2 := bigSigma0 (V t).w0 + maj (V t).w0 (V t).w1 (V t).w2
        (V (t + 1)).w7 = (V t).w6 ∧ (V (t + 1)).w6 = (V t).w5 ∧ (V (t + 1)).w5 = (V t).w4 ∧
        (V (t + 1)).w4 = (V t).w3 + T1 ∧ (V (t + 1)).w3 = (V t).w2 ∧ (V (t + 1)).w2 = (V t).w1 ∧
        (V (t + 1)).w1 = (V t).w0 ∧ (V (t + 1)).w0 = T1 + T2) ∧
      compress h block =
        ⟨h.w0 + (V 64).w0, h.w1 + (V 64).w1, h.w2 + (V 64).w2, h.w3 + (V 64).w3,
         h.w4 + (V 64).w4, h.w5 + (V 64).w5, h.w6 + (V 64).w6, h.w7 + (V 64).w7⟩

/-- R102, R103: bit i of rotr(x, n) is bit (i + n) mod 32 of x, and shr(x, n) is floor(x / 2^n). -/
def Obligations.RotateAndShiftMoveBits : Prop :=
  ∀ (x : Word) (n : Nat),
    (0 < n → n < 32 → ∀ i, i < 32 → (rotr x n).getLsbD i = x.getLsbD ((i + n) % 32)) ∧
    (n < 32 → (shr x n).toNat = x.toNat / 2 ^ n)

/-- R104 to R109: every bit of σ0, σ1, Σ0, Σ1, Ch and Maj. -/
def Obligations.WordFunctionsBitByBit : Prop :=
  ∀ (x y z : Word) (i : Nat), i < 32 →
    (smallSigma0 x).getLsbD i =
      ((x.getLsbD ((i + 7) % 32) ^^ x.getLsbD ((i + 18) % 32)) ^^ (decide (i + 3 < 32) && x.getLsbD (i + 3))) ∧
    (smallSigma1 x).getLsbD i =
      ((x.getLsbD ((i + 17) % 32) ^^ x.getLsbD ((i + 19) % 32)) ^^ (decide (i + 10 < 32) && x.getLsbD (i + 10))) ∧
    (bigSigma0 x).getLsbD i =
      ((x.getLsbD ((i + 2) % 32) ^^ x.getLsbD ((i + 13) % 32)) ^^ x.getLsbD ((i + 22) % 32)) ∧
    (bigSigma1 x).getLsbD i =
      ((x.getLsbD ((i + 6) % 32) ^^ x.getLsbD ((i + 11) % 32)) ^^ x.getLsbD ((i + 25) % 32)) ∧
    (ch x y z).getLsbD i = (if x.getLsbD i = true then y.getLsbD i else z.getLsbD i) ∧
    (maj x y z).getLsbD i =
      decide (2 ≤ (x.getLsbD i).toNat + (y.getLsbD i).toNat + (z.getLsbD i).toNat)

/-- R110, R111: with p_t the (t+1)-th prime, K[t] is floor(cbrt(p_t · 2^96)) mod 2^32 and IV[i] is
floor(sqrt(p_i · 2^64)) mod 2^32. The 64 primes below 312 are the first 64. -/
def Obligations.ConstantTablesAreTheRootFractions : Prop :=
  ∃ primes : List Nat, primes.length = 64 ∧ primes.Pairwise (· < ·) ∧
    (∀ n, n ∈ primes ↔ n < 312 ∧ 2 ≤ n ∧ ∀ d, 2 ≤ d → d < n → n % d ≠ 0) ∧
    (∀ t, t < 64 → ∃ p k c, primes[t]? = some p ∧ kTable[t]? = some k ∧
      c ^ 3 ≤ p * 2 ^ 96 ∧ p * 2 ^ 96 < (c + 1) ^ 3 ∧ k.toNat = c % 2 ^ 32) ∧
    (∀ i, i < 8 → ∃ p v c, primes[i]? = some p ∧ ivWords.toList[i]? = some v ∧
      c ^ 2 ≤ p * 2 ^ 64 ∧ p * 2 ^ 64 < (c + 1) ^ 2 ∧ v.toNat = c % 2 ^ 32)

/-- R152, R62, Shape A: PAD len, len ≤ 55, performed with both MLEN halves defined, writes BLK[len..63]: 0x80, zeros up
to BLK[55], the bit count big-endian. COMPLETE is 1, PHASE is PADDED_FINAL, nothing else changes. -/
def Obligations.PadShapeAWritesTheFinalBlock : Prop :=
  ∀ (s : State) (len : Fin 64) (lo hi : Word),
    s.busy = true → s.mlenLo = some lo → s.mlenHi = some hi → len.val ≤ 55 →
    ∃ t, exec (.pad len) s = .next t ∧
      t = { s with mem := t.mem, complete := true, phase := .paddedFinal, busy := false, pending := none } ∧
      t.mem.read (0x40 + len.val) = some 0x80 ∧
      (∀ i, len.val < i → i < 56 → t.mem.read (0x40 + i) = some 0x00) ∧
      (∀ k, k < 8 → t.mem.read (0x40 + 56 + k) =
        some (BitVec.ofNat 8 (8 * (hi.toNat * 2 ^ 32 + lo.toNat) / 2 ^ (56 - 8 * k)))) ∧
      (∀ a, a < 0x40 + len.val ∨ 0x80 ≤ a → t.mem.read a = s.mem.read a)

/-- R152, Shape B: PAD len, 56 ≤ len ≤ 63, performed with both MLEN halves defined, writes BLK[len..63]: 0x80, then
zeros. COMPLETE is 0, PHASE is PADDED_MORE, nothing else changes. -/
def Obligations.PadShapeBWritesTheOverflowBlock : Prop :=
  ∀ (s : State) (len : Fin 64) (lo hi : Word),
    s.busy = true → s.mlenLo = some lo → s.mlenHi = some hi → 56 ≤ len.val →
    ∃ t, exec (.pad len) s = .next t ∧
      t = { s with mem := t.mem, complete := false, phase := .paddedMore, busy := false, pending := none } ∧
      t.mem.read (0x40 + len.val) = some 0x80 ∧
      (∀ i, len.val < i → i < 64 → t.mem.read (0x40 + i) = some 0x00) ∧
      (∀ a, a < 0x40 + len.val ∨ 0x80 ≤ a → t.mem.read a = s.mem.read a)

/-- R153: PADNULL, performed with both MLEN halves defined, writes 56 zero bytes and the bit count big-endian. COMPLETE
is 1, PHASE is PADDED_FINAL, nothing else changes. -/
def Obligations.PadnullWritesTheLengthBlock : Prop :=
  ∀ (s : State) (lo hi : Word), s.busy = true → s.mlenLo = some lo → s.mlenHi = some hi →
    ∃ t, exec .padnull s = .next t ∧
      t = { s with mem := t.mem, complete := true, phase := .paddedFinal, busy := false, pending := none } ∧
      (∀ i, i < 56 → t.mem.read (0x40 + i) = some 0x00) ∧
      (∀ k, k < 8 → t.mem.read (0x40 + 56 + k) =
        some (BitVec.ofNat 8 (8 * (hi.toNat * 2 ^ 32 + lo.toNat) / 2 ^ (56 - 8 * k)))) ∧
      (∀ a, a < 0x40 ∨ 0x80 ≤ a → t.mem.read a = s.mem.read a)

/-- R161: PAD's output is independent of whatever BLK[len..63] held before, PADNULL's of all of BLK; PAD 0 writes the
block that begins with 0x80. -/
def Obligations.PadOutputIgnoresOldBytes : Prop :=
  ∀ (s s' t t' : State), s.busy = true → s'.busy = true → s.mlenLo = s'.mlenLo → s.mlenHi = s'.mlenHi →
    (∀ len : Fin 64, (∀ i, i < len.val → s.mem.read (0x40 + i) = s'.mem.read (0x40 + i)) →
      exec (.pad len) s = .next t → exec (.pad len) s' = .next t' →
        ∀ i, i < 64 → t.mem.read (0x40 + i) = t'.mem.read (0x40 + i)) ∧
    (exec (.pad 0) s = .next t → t.mem.read 0x40 = some 0x80) ∧
    (exec .padnull s = .next t → exec .padnull s' = .next t' →
      ∀ i, i < 64 → t.mem.read (0x40 + i) = t'.mem.read (0x40 + i))

/-- R151: L = (MLEN · 8) mod 2^64, which is 8·MLEN exactly under every admissible limit. -/
def Obligations.BitCountIsEightTimesTheLength : Prop :=
  ∀ n : BitVec 64,
    (bitCount n).toNat = n.toNat * 8 % 2 ^ 64 ∧
    (∀ limit, limit ≤ Config.maxMsgBytesLimit → lengthExceeds n limit = false → (bitCount n).toNat = 8 * n.toNat)

/-- R171, R63: EXTRACT, performed with H defined, writes the digest bytes, each word big-endian, H[0] first; DIG_VALID
is 1 and nothing else changes. -/
def Obligations.ExtractSerializesTheStateWords : Prop :=
  ∀ (s : State) (h : Words8), s.busy = true → s.h = some h →
    ∃ t, exec .extract s = .next t ∧
      t = { s with mem := t.mem, digValid := true, busy := false, pending := none } ∧
      (∀ i k, i < 8 → k < 4 → ∃ w, h.toList[i]? = some w ∧
        t.mem.read (0x80 + 4 * i + k) = some (BitVec.ofNat 8 (w.toNat / 2 ^ (24 - 8 * k)))) ∧
      (∀ a, a < 0x80 ∨ 0xA0 ≤ a → t.mem.read a = s.mem.read a)

/-- 00_scope.md R12 (log entry 7): where a core step would consume a ⊥ operand, or ABSORB has no next phase, or nothing is
pending, the model stops by name. No state with `State.Inv` has any of these. -/
def Obligations.CoreStepWithoutItsOperandsStops : Prop :=
  ∀ s : State, s.busy = true →
    (s.h = none → exec .absorb s = .fault .undefinedOperand ∧ exec .extract s = .fault .undefinedOperand) ∧
    ((∃ k, k < 64 ∧ s.mem.read (0x40 + k) = none) → exec .absorb s = .fault .undefinedOperand) ∧
    (s.mlenLo = none ∨ s.mlenHi = none →
      exec .padnull s = .fault .undefinedOperand ∧ ∀ len, exec (.pad len) s = .fault .undefinedOperand) ∧
    (s.h ≠ none → (∀ k, k < 64 → s.mem.read (0x40 + k) ≠ none) →
      s.phase ∈ [.uninit, .needNull, .done, Phase.cleared] → exec .absorb s = .fault .noNextPhase) ∧
    (s.fault = false → s.pending = none → s.inputs = [] → step s = .fault .noPendingCommand)

/-! ## Issue and phase (60_exceptions.md R203, R204; 42_padding.md R156) -/

/-- R203, R204: the checks of a CMD write run in this order, the first that fails is the fault recorded, and a command
that passes them all is accepted, with no other effect. -/
def Obligations.CommandWriteChecksRunInOrder : Prop :=
  ∀ (s : State) (rest : List Input) (w : Word),
    s.inputs = .access (cmdWrite w) :: rest → s.fault = false → s.busy = false →
    ∃ t, step s = .next t ∧ t.inputs = rest ∧
      (∀ e, decode w = .error e → FaultEntered 1 (cmdWrite w) s t) ∧
      (∀ i, decode w = .ok i →
        (s.phase.next i = none → FaultEntered 2 (cmdWrite w) s t) ∧
        (s.phase.next i ≠ none →
          (i = .absorb → (∃ k, k < 64 ∧ s.mem.read (0x40 + k) = none) → FaultEntered 6 (cmdWrite w) s t) ∧
          (i = .padnull ∨ (∃ len, i = .pad len) → s.mlenLo = none ∨ s.mlenHi = none →
            FaultEntered 6 (cmdWrite w) s t) ∧
          (∀ lo hi, i = .padnull ∨ (∃ len, i = .pad len) → s.mlenLo = some lo → s.mlenHi = some hi →
            s.maxMsgBytes ≤ hi.toNat * 2 ^ 32 + lo.toNat → FaultEntered 3 (cmdWrite w) s t) ∧
          ((i = .absorb → ∀ k, k < 64 → s.mem.read (0x40 + k) ≠ none) →
            (i = .padnull ∨ (∃ len, i = .pad len) → ∃ lo hi, s.mlenLo = some lo ∧ s.mlenHi = some hi ∧
              hi.toNat * 2 ^ 32 + lo.toNat < s.maxMsgBytes) →
            t = { s with inputs := rest, reply := .silent, pending := some i, busy := true })))

/-- R156: the transition table of PHASE (rows UNINIT … CLEARED; columns INIT, ABSORB, PAD len ≤ 55, PAD len ≥ 56, PADNULL,
EXTRACT, CLEAR; `none` is SEQ), and every performed command moves PHASE as the table says. -/
def Obligations.PhaseFollowsTheTransitionTable : Prop :=
  (∀ (small large : Fin 64), small.val ≤ 55 → 56 ≤ large.val →
    ([.uninit, .absorbing, .paddedFinal, .paddedMore, .needNull, .done, Phase.cleared].map fun p =>
      [p.next .init, p.next .absorb, p.next (.pad small), p.next (.pad large), p.next .padnull, p.next .extract,
        p.next .clear]) =
    [[some .absorbing, none, none, none, none, none, some .cleared],
     [some .absorbing, some .absorbing, some .paddedFinal, some .paddedMore, none, none, some .cleared],
     [some .absorbing, some .done, none, none, none, none, some .cleared],
     [some .absorbing, some .needNull, none, none, none, none, some .cleared],
     [some .absorbing, none, none, none, some .paddedFinal, none, some .cleared],
     [some .absorbing, none, none, none, none, some .done, some .cleared],
     [some .absorbing, none, none, none, none, some .cleared, some .cleared]]) ∧
  (∀ (s t : State) (i : Instr) (p : Phase), s.busy = true → s.phase.next i = some p → exec i s = .next t → t.phase = p)

/-! ## Host accesses (20_memory.md, 43_digest.md R173–R178, 60_exceptions.md R202) -/

/-- R52: an access that matches no row of the address map in offset, width and direction raises BAD_ACCESS, busy or not,
and has no other effect. -/
def Obligations.IllegalAccessRaisesBadAccess : Prop :=
  ∀ (s : State) (rest : List Input) (acc : HostAccess), s.inputs = .access acc :: rest → s.fault = false →
    ¬ ((acc.off = 0x00 ∧ acc.width = .w32 ∧ acc.dir = .write) ∨
       (acc.off.toNat ∈ [0x04, 0x08, 0x0C] ∧ acc.width = .w32 ∧ acc.dir = .read) ∨
       (acc.off.toNat ∈ [0x10, 0x14] ∧ acc.width = .w32) ∨
       (0x40 ≤ acc.off.toNat ∧ acc.off.toNat ≤ 0x7F ∧ acc.width = .w8) ∨
       (0x80 ≤ acc.off.toNat ∧ acc.off.toNat ≤ 0x9F ∧ acc.width = .w8 ∧ acc.dir = .read)) →
    ∃ t, step s = .next t ∧ t.inputs = rest ∧ FaultEntered 7 acc s t

/-- R242: while BUSY = 1, a legal access other than a read of STATUS, FINFO0 or FINFO1 raises CONCURRENT and the pending
command is abandoned. -/
def Obligations.BusyBlockRejectsOtherAccesses : Prop :=
  ∀ (s : State) (rest : List Input) (acc : HostAccess), s.inputs = .access acc :: rest → s.fault = false →
    s.busy = true → acc.legal = true →
    ¬ (acc.width = .w32 ∧ acc.dir = .read ∧ acc.off.toNat ∈ [0x04, 0x08, 0x0C]) →
    ∃ t, step s = .next t ∧ t.inputs = rest ∧ FaultEntered 4 acc s t

/-- R57, R58: in every state, busy or faulted, a 32-bit read of STATUS, FINFO0 or FINFO1 returns the register and has no
side effect; STATUS is laid out as R38 says. -/
def Obligations.StatusReadsReturnTheRegisters : Prop :=
  (∀ (s : State) (rest : List Input) (v : Word),
    (s.inputs = .access ⟨0x04, .w32, .read, v⟩ :: rest →
      step s = .next { s with inputs := rest, reply := .word s.status }) ∧
    (s.inputs = .access ⟨0x08, .w32, .read, v⟩ :: rest →
      step s = .next { s with inputs := rest, reply := .word s.finfo0 }) ∧
    (s.inputs = .access ⟨0x0C, .w32, .read, v⟩ :: rest →
      step s = .next { s with inputs := rest, reply := .word s.finfo1 })) ∧
  (∀ s : State, s.status.toNat = s.busy.toNat + 2 * s.complete.toNat + 4 * s.fault.toNat + 8 * s.digValid.toNat
    + 16 * (match s.phase with
      | .uninit => 0 | .absorbing => 1 | .paddedFinal => 2 | .paddedMore => 3 | .needNull => 4 | .done => 5
      | .cleared => 6)
    + 256 * s.fcode.toNat)

/-- R173, R174: a block byte reads as it is held, or raises UNDEFINED_READ; a write sets the byte and its definedness, or
raises BUFFER_HAZARD while a padded block waits; nothing else changes. Both raise CONCURRENT while BUSY = 1. -/
def Obligations.BlockByteAccesses : Prop :=
  ∀ (s : State) (rest : List Input) (i : Nat) (v : Word), i < 64 → s.fault = false →
    (s.inputs = .access ⟨BitVec.ofNat 8 (0x40 + i), .w8, .read, v⟩ :: rest →
      (s.busy = true → ∃ t, step s = .next t ∧ t.inputs = rest ∧
        FaultEntered 4 ⟨BitVec.ofNat 8 (0x40 + i), .w8, .read, v⟩ s t) ∧
      (s.busy = false → ∀ b, s.mem.read (0x40 + i) = some b →
        step s = .next { s with inputs := rest, reply := .byte b }) ∧
      (s.busy = false → s.mem.read (0x40 + i) = none → ∃ t, step s = .next t ∧ t.inputs = rest ∧
        FaultEntered 6 ⟨BitVec.ofNat 8 (0x40 + i), .w8, .read, v⟩ s t)) ∧
    (s.inputs = .access ⟨BitVec.ofNat 8 (0x40 + i), .w8, .write, v⟩ :: rest →
      (s.busy = true → ∃ t, step s = .next t ∧ t.inputs = rest ∧
        FaultEntered 4 ⟨BitVec.ofNat 8 (0x40 + i), .w8, .write, v⟩ s t) ∧
      (s.busy = false → s.phase = .paddedFinal ∨ s.phase = .paddedMore → ∃ t, step s = .next t ∧ t.inputs = rest ∧
        FaultEntered 5 ⟨BitVec.ofNat 8 (0x40 + i), .w8, .write, v⟩ s t) ∧
      (s.busy = false → s.phase ≠ .paddedFinal → s.phase ≠ .paddedMore → ∃ t, step s = .next t ∧
        t = { s with inputs := rest, reply := .silent, mem := t.mem } ∧
        t.mem.read (0x40 + i) = some (BitVec.ofNat 8 v.toNat) ∧
        ∀ a, a ≠ 0x40 + i → t.mem.read a = s.mem.read a))

/-- R175: a digest byte reads as EXTRACT left it, or raises UNDEFINED_READ while DIG_VALID = 0; the read raises CONCURRENT
while BUSY = 1; a write raises BAD_ACCESS. The state meets `State.Inv`: every digest byte is defined while DIG_VALID = 1. -/
def Obligations.DigestByteAccesses : Prop :=
  ∀ (s : State) (rest : List Input) (i : Nat) (v : Word), s.Inv → i < 32 → s.fault = false →
    (s.inputs = .access ⟨BitVec.ofNat 8 (0x80 + i), .w8, .read, v⟩ :: rest →
      (s.busy = true → ∃ t, step s = .next t ∧ t.inputs = rest ∧
        FaultEntered 4 ⟨BitVec.ofNat 8 (0x80 + i), .w8, .read, v⟩ s t) ∧
      (s.busy = false → s.digValid = true → ∃ b, s.mem.read (0x80 + i) = some b ∧
        step s = .next { s with inputs := rest, reply := .byte b }) ∧
      (s.busy = false → s.digValid = false → ∃ t, step s = .next t ∧ t.inputs = rest ∧
        FaultEntered 6 ⟨BitVec.ofNat 8 (0x80 + i), .w8, .read, v⟩ s t)) ∧
    (s.inputs = .access ⟨BitVec.ofNat 8 (0x80 + i), .w8, .write, v⟩ :: rest → ∃ t, step s = .next t ∧
      t.inputs = rest ∧ FaultEntered 7 ⟨BitVec.ofNat 8 (0x80 + i), .w8, .write, v⟩ s t)

/-- R176: MLEN_LO and MLEN_HI are written in any phase and read back exactly; reading a ⊥ half raises UNDEFINED_READ; all
four accesses raise CONCURRENT while BUSY = 1. -/
def Obligations.LengthRegisterAccesses : Prop :=
  ∀ (s : State) (rest : List Input) (v : Word), s.fault = false →
    (∀ off dir, off = 0x10 ∨ off = 0x14 → s.inputs = .access ⟨off, .w32, dir, v⟩ :: rest → s.busy = true →
      ∃ t, step s = .next t ∧ t.inputs = rest ∧ FaultEntered 4 ⟨off, .w32, dir, v⟩ s t) ∧
    (s.busy = false →
      (s.inputs = .access ⟨0x10, .w32, .write, v⟩ :: rest →
        step s = .next { s with inputs := rest, reply := .silent, mlenLo := some v }) ∧
      (s.inputs = .access ⟨0x14, .w32, .write, v⟩ :: rest →
        step s = .next { s with inputs := rest, reply := .silent, mlenHi := some v }) ∧
      (s.inputs = .access ⟨0x10, .w32, .read, v⟩ :: rest →
        (∀ n, s.mlenLo = some n → step s = .next { s with inputs := rest, reply := .word n }) ∧
        (s.mlenLo = none → ∃ t, step s = .next t ∧ t.inputs = rest ∧ FaultEntered 6 ⟨0x10, .w32, .read, v⟩ s t)) ∧
      (s.inputs = .access ⟨0x14, .w32, .read, v⟩ :: rest →
        (∀ n, s.mlenHi = some n → step s = .next { s with inputs := rest, reply := .word n }) ∧
        (s.mlenHi = none → ∃ t, step s = .next t ∧ t.inputs = rest ∧ FaultEntered 6 ⟨0x14, .w32, .read, v⟩ s t)))

/-- R72 (U4): an access of a second host is refused by name; the form of the refusal is the model's choice (log entry
11). -/
def Obligations.SecondHostIsRefused : Prop :=
  ∀ (s : State) (rest : List Input) (acc : HostAccess), s.inputs = .secondHost acc :: rest →
    step s = .refused .secondHost

/-! ## Faults (60_exceptions.md R205 to R210) -/

/-- R205: whichever fault an access raises, and in whichever state, the record is the access's, a pending command is
abandoned and the access has no other effect. -/
def Obligations.EveryFaultRecordsItsAccess : Prop :=
  ∀ (s t : State), s.fault = false → step s = .next t → t.fault = true →
    ∃ acc rest code, s.inputs = .access acc :: rest ∧ t.inputs = rest ∧ 1 ≤ code ∧ code ≤ 7 ∧ FaultEntered code acc s t

/-- R27, R29, R41: a fault keeps which values are defined: H outside UNINIT, each byte of BLK, DIG while DIG_VALID = 1.
R205 leaves the values unspecified; that definedness is kept is DEDUCED (log entry 4). -/
def Obligations.FaultKeepsWhatIsDefined : Prop :=
  ∀ (s t : State), s.fault = false → step s = .next t → t.fault = true →
    t.h.isSome = s.h.isSome ∧ ∀ a, (t.mem.read a).isSome = (s.mem.read a).isSome

/-- R206, R209: in the faulted state no access and no core turn changes the block, the status registers stay readable
(any other read returns an unspecified value), and only RST leaves it. -/
def Obligations.FaultedStateIsFinal : Prop :=
  ∀ (s t : State), s.fault = true → step s = .next t →
    (SameBlock s t ∨ ∃ rest, s.inputs = .rst :: rest) ∧
    (t.fault = false → ∃ rest, s.inputs = .rst :: rest) ∧
    (∀ acc rest, s.inputs = .access acc :: rest → acc.dir = .write → t.reply = .silent) ∧
    (∀ v rest, s.inputs = .access ⟨0x04, .w32, .read, v⟩ :: rest → t.reply = .word s.status) ∧
    (∀ v rest, s.inputs = .access ⟨0x08, .w32, .read, v⟩ :: rest → t.reply = .word s.finfo0) ∧
    (∀ v rest, s.inputs = .access ⟨0x0C, .w32, .read, v⟩ :: rest → t.reply = .word s.finfo1)

/-- R206: every access in the faulted state completes, and so does a core turn. -/
def Obligations.FaultedStateAcceptsEveryAccess : Prop :=
  ∀ (s : State), s.fault = true → s.oneHost → ∃ t, step s = .next t

/-- R208: the core step never faults: from every state with `State.Inv`, the pending command is performed, no fault is
recorded and the block is free again. -/
def Obligations.CoreStepNeverFaults : Prop :=
  ∀ (s : State) (i : Instr), s.Inv → s.pending = some i →
    ∃ t, exec i s = .next t ∧ t.fault = false ∧ t.busy = false ∧ t.pending = none

/-! ## Invariants -/

/-- The reset state meets the invariant. -/
def Obligations.ResetMeetsTheInvariant : Prop := State.reset.Inv

/-- Every step keeps the invariant: the canonical buffers, PENDING with BUSY, H = ⊥ with UNINIT, DIG with DIG_VALID, the
fault record, the acceptance of a pending command, COMPLETE with PHASE, H = 0 in CLEARED. What stands for an undefined
byte is the model's choice (log entries 4 and 9). -/
def Obligations.EveryStepKeepsTheInvariant : Prop :=
  ∀ (s t : State), s.Inv → step s = .next t → t.Inv

/-- From every state with the invariant, with one host, a step completes: nothing a host or the core does stops the
machine. -/
def Obligations.EveryStepCompletes : Prop :=
  ∀ s : State, s.Inv → s.oneHost → ∃ t, step s = .next t

/-! ## Whole-machine rules -/

/-- R22: H changes only by a performed INIT, ABSORB or CLEAR, by a fault (which leaves it unspecified) or by RST. -/
def Obligations.OnlyThreeCommandsWriteTheHash : Prop :=
  ∀ (s t : State), step s = .next t → t.h ≠ s.h →
    (s.busy = true ∧ s.fault = false ∧ (s.inputs = [] ∨ ∃ rest, s.inputs = .core :: rest) ∧
      (s.pending = some .init ∨ s.pending = some .absorb ∨ s.pending = some .clear)) ∨
    (s.fault = false ∧ t.fault = true) ∨ (∃ rest, s.inputs = .rst :: rest)

/-- R27: a BLKdef bit is set only by a host write of that byte or by a performed PAD or PADNULL, and cleared only by
RST. -/
def Obligations.BlockDefinednessChangesAsStated : Prop :=
  ∀ (s t : State) (i : Nat), i < 64 → step s = .next t →
    (s.blkDef i = true → t.blkDef i = false → ∃ rest, s.inputs = .rst :: rest) ∧
    (s.blkDef i = false → t.blkDef i = true →
      (∃ v rest, s.inputs = .access ⟨BitVec.ofNat 8 (0x40 + i), .w8, .write, v⟩ :: rest) ∨
      (s.busy = true ∧ s.fault = false ∧ (s.inputs = [] ∨ ∃ rest, s.inputs = .core :: rest) ∧
        (s.pending = some .padnull ∨ ∃ len : Fin 64, s.pending = some (.pad len) ∧ len.val ≤ i)))

/-- R29: DIG_VALID is set only by an EXTRACT that the core performs in its turn, which does set it, and cleared only by
RST, which does clear it. -/
def Obligations.DigValidChangesAsStated : Prop :=
  ∀ (s t : State), step s = .next t →
    (t.digValid ≠ s.digValid →
      ((s.inputs = [] ∨ ∃ rest, s.inputs = .core :: rest) ∧ s.busy = true ∧ s.fault = false ∧
        s.pending = some .extract ∧ t.digValid = true) ∨
      ((∃ rest, s.inputs = .rst :: rest) ∧ t.digValid = false)) ∧
    ((∃ rest, s.inputs = .rst :: rest) → t.digValid = false) ∧
    ((s.inputs = [] ∨ ∃ rest, s.inputs = .core :: rest) → s.busy = true → s.fault = false →
      s.pending = some .extract → t.digValid = true)

/-- R35: COMPLETE is set to 1 by a performed PAD with len ≤ 55 or PADNULL, to 0 by a performed PAD with len ≥ 56 or by RST,
and nothing else changes it; STATUS[1] reports it. -/
def Obligations.CompleteHoldsThePadResult : Prop :=
  ∀ (s t : State), step s = .next t →
    (t.complete ≠ s.complete →
      (∃ rest, s.inputs = .rst :: rest) ∨
      ((s.inputs = [] ∨ ∃ rest, s.inputs = .core :: rest) ∧ s.busy = true ∧ s.fault = false ∧
        (s.pending = some .padnull ∨ ∃ len, s.pending = some (.pad len)))) ∧
    ((∃ rest, s.inputs = .rst :: rest) → t.complete = false) ∧
    ((s.inputs = [] ∨ ∃ rest, s.inputs = .core :: rest) → s.busy = true → s.fault = false →
      (s.pending = some .padnull → t.complete = true) ∧
      (∀ len : Fin 64, s.pending = some (.pad len) → t.complete = decide (len.val ≤ 55))) ∧
    t.status.getLsbD 1 = t.complete

/-- R240: between issue and the core step no host access changes what the command reads: either the command stays
pending and H, BLK, DIG, MLEN and PHASE stay, or a fault abandons it. -/
def Obligations.PendingCommandKeepsItsOperands : Prop :=
  ∀ (s t : State) (acc : HostAccess) (rest : List Input), s.busy = true → s.fault = false →
    s.inputs = .access acc :: rest → step s = .next t →
      SameBlock s t ∨ (t.fault = true ∧ t.pending = none ∧ t.busy = false)

/-- R241: however often the host polls STATUS, the core step that follows performs the pending command (the block is
exactly as `exec` of it leaves the block, H and the buffers included) and WAIT ends: the poll after it reads BUSY = 0. -/
def Obligations.PolledCommandIsPerformed : Prop :=
  ∀ (s : State) (i : Instr) (polls : Nat), s.Inv → s.pending = some i →
    ∃ t u, Host.Core.run Sys2Proof.core (polls + 2)
        { s with inputs := List.replicate polls (.access statusRead) ++ [.core, .access statusRead] } = .next t ∧
      exec i s = .next u ∧ SameBlock u t ∧
      t.busy = false ∧ t.fault = false ∧ t.inputs = [] ∧ ∃ v, t.reply = .word v ∧ v.getLsbD 0 = false

/-- R92, R241: a bare command in a host script, ISSUE followed by WAIT, ends for every number of polls before the core
step: the host is past its WAIT, and the block is as the performed command leaves it. How a host runs a script is the
model's choice (log entry 13). -/
def Obligations.WaitEndsAfterTheCoreStep : Prop :=
  ∀ (s : State) (i : Instr) (polls l : Nat), s.Inv → s.idle → issueFault i s = none →
    ∃ y t, System.run (commandOrder polls) ⟨⟨command l i, 0, []⟩, s⟩ = .next y ∧
      y.host.position = (command l i).length ∧
      exec i { s with pending := some i, busy := true } = .next t ∧ SameBlock t y.block ∧ y.block.busy = false ∧
      y.block.fault = false

/-- R181: loading bytes in two chunks makes the same accesses as loading them at once, so the host's buffering of a message
cannot change what is absorbed. -/
def Obligations.ChunkedLoadsAreOneLoad : Prop :=
  ∀ (off : Nat) (xs ys : List Byte),
    lineInputs (loadBlk off (xs ++ ys)) = lineInputs (loadBlk off xs) ++ lineInputs (loadBlk (off + xs.length) ys)

/-- R216: in every interleaving of a platform's instances each one ends as it would alone. How a platform holds its
instances is the model's choice (log entry 12). -/
def Obligations.InstancesAreIsolated : Prop :=
  ∀ (order : List Nat) (p q : Platform), Platform.run order p = .next q →
    q.length = p.length ∧
    ∀ (k : Nat) (b : PortedBlock), p[k]? = some b → ∃ c, q[k]? = some c ∧ c.base = b.base ∧
      Host.Core.run Sys2Proof.core (order.count k) b.block = .next c.block

/-! ## SHA-256 -/

/-- R184: after CLEAR and then EXTRACT, from every unfaulted idle state, DIG holds 32 zero bytes. -/
def Obligations.ClearThenExtractGivesZeros : Prop :=
  ∀ (s : State) (p q : Nat), s.Inv → s.idle →
    ∃ t, SafeRun (commandInputs p .clear ++ commandInputs q .extract).length
        { s with inputs := commandInputs p .clear ++ commandInputs q .extract } t ∧
      t.digValid = true ∧ ∀ i, i < 32 → t.mem.read (0x80 + i) = some 0x00

/-- R160, R139, R180: for every message m of fewer than MAX_MSG_BYTES bytes, from every unfaulted idle state and however
often each command is polled, the accesses that absorb the full blocks, pad the rest, absorb the padded blocks, extract
and clear end without a fault, with the SHA-256 digest of m in DIG and H zeroed. -/
def Obligations.ComputeGivesTheDigest : Prop :=
  ∀ (s : State) (polls : Nat → Nat) (m : List Byte), s.Inv → s.idle → m.length < s.maxMsgBytes →
    ∃ t, SafeRun (computeInputs polls m).length { s with inputs := computeInputs polls m } t ∧ t.phase = .cleared ∧ t.h = some zeroWords ∧ t.digValid = true ∧
      t.digestBytes = some (sha256 m)

/-- R180: a host that runs the script COMPUTE m, however often it polls for each command, comes to the script's end without
a fault, with the SHA-256 digest of m in its variables d[0..31]. How a host runs a script is the model's choice (log entry
13). -/
def Obligations.ComputeScriptReturnsTheDigest : Prop :=
  ∀ (s : State) (polls : Nat → Nat) (m : List Byte), s.Inv → s.idle → m.length < s.maxMsgBytes →
    ∃ y, System.run (computeOrder polls m) ⟨⟨compute m, 0, []⟩, s⟩ = .next y ∧
      y.host.position = (compute m).length ∧ y.block.fault = false ∧ y.block.phase = .cleared ∧
      ∀ i, i < 32 → lookupVar (.digest i) y.host.vars = (sha256 m)[i]?.map (·.zeroExtend 32)

/-- R160: the padded message is m, 0x80, z zero bytes and the bit count, a whole number of 64-byte blocks, with z the
least such number; it takes one block more than the full ones if n mod 64 ≤ 55 and two otherwise. -/
def Obligations.PaddedMessageIsWholeBlocks : Prop :=
  ∀ m : List Byte,
    (∃ z, paddedMessage m = m ++ [0x80] ++ List.replicate z 0x00 ++
        bytesBE64 (BitVec.ofNat 64 (8 * m.length)) ∧
      (m.length + 1 + z + 8) % 64 = 0 ∧ ∀ z', (m.length + 1 + z' + 8) % 64 = 0 → z ≤ z') ∧
    (paddedMessage m).length = 64 * (m.length / 64 + if m.length % 64 ≤ 55 then 1 else 2)
end

