-- ==== Sys2Proof/Laws/Memory.lean ====
section
/-! SUPPORT. The buffers: a read after a write, what a write leaves alone, and the canonical form. -/

namespace Sys2Proof.Machine

@[simp] theorem Memory.read_nil (a : Nat) : Memory.read [] a = none := rfl

/-- A byte reads as written, every other byte as before. -/
theorem Memory.read_write (m : Memory) (a : Nat) (v : Byte) (x : Nat) :
    (Memory.write m a v).read x = if x = a then some v else Memory.read m x := by
  induction m with
  | nil => simp [Memory.write, Memory.read]
  | cons c m ih =>
    obtain ⟨b, w⟩ := c
    simp only [Memory.write]
    split
    · simp [Memory.read]
    · split
      · subst_vars; simp only [Memory.read]; split <;> simp_all
      · simp only [Memory.read, ih]
        by_cases hb : x = b
        · rw [if_pos hb, if_neg (by omega), if_pos hb]
        · simp [hb]

@[simp] theorem Memory.writeBytes_nil (m : Memory) (a : Nat) : Memory.writeBytes m a [] = m := by
  simp only [Memory.writeBytes]

theorem Memory.writeBytes_cons (m : Memory) (a : Nat) (v : Byte) (vs : List Byte) :
    Memory.writeBytes m a (v :: vs) = Memory.writeBytes (Memory.write m a v) (a + 1) vs := by
  simp only [Memory.writeBytes]

/-- What `writeBytes` leaves: its own bytes where it writes, every other byte as before. -/
theorem Memory.read_writeBytes (vs : List Byte) (m : Memory) (a x : Nat) :
    (Memory.writeBytes m a vs).read x =
      if a ≤ x ∧ x < a + vs.length then vs[x - a]? else Memory.read m x := by
  induction vs generalizing m a with
  | nil => rw [Memory.writeBytes_nil, if_neg (by rw [List.length_nil]; omega)]
  | cons v vs ih =>
    simp only [Memory.writeBytes_cons, ih, Memory.read_write, List.length_cons]
    by_cases hx : x = a
    · subst hx
      rw [if_neg (by omega), if_pos rfl, if_pos (by omega)]
      simp
    · by_cases h : a + 1 ≤ x ∧ x < a + 1 + vs.length
      · rw [if_pos h, if_pos (by omega)]
        have : x - a = (x - (a + 1)) + 1 := by omega
        simp [this]
      · rw [if_neg h, if_neg hx, if_neg (by omega)]

theorem Memory.read_writeBytes_outside {vs : List Byte} {m : Memory} {a x : Nat}
    (h : x < a ∨ a + vs.length ≤ x) : (Memory.writeBytes m a vs).read x = Memory.read m x := by
  rw [Memory.read_writeBytes, if_neg (by omega)]

/-- A byte that `writeBytes` writes, or that was defined before, is defined. -/
theorem Memory.isSome_read_writeBytes (vs : List Byte) (m : Memory) (a x : Nat) :
    ((Memory.writeBytes m a vs).read x).isSome = (decide (a ≤ x ∧ x < a + vs.length) || (Memory.read m x).isSome) := by
  rw [Memory.read_writeBytes]
  by_cases h : a ≤ x ∧ x < a + vs.length
  · simp [h, show x - a < vs.length by omega]
  · simp [h]

/-- Free values keep which bytes are defined. -/
@[simp] theorem Memory.isSome_read_havoc (k : Nat) (m : Memory) (x : Nat) :
    ((Memory.havoc k m).read x).isSome = (Memory.read m x).isSome := by
  induction m with
  | nil => rfl
  | cons c m ih =>
    obtain ⟨b, w⟩ := c
    simp only [Memory.havoc, Memory.read]
    split <;> simp_all

/-- `readBytes` succeeds iff every byte is defined, and then gives them in order. -/
theorem Memory.readBytes_eq_some {m : Memory} {a n : Nat} {bs : List Byte} :
    Memory.readBytes m a n = some bs ↔ bs.length = n ∧ ∀ i, i < n → m.read (a + i) = bs[i]? := by
  induction n generalizing a bs with
  | zero => simp [Memory.readBytes]
  | succ n ih =>
    cases bs with
    | nil => simp only [Memory.readBytes]; split <;> simp
    | cons b bs =>
      constructor
      · intro h
        simp only [Memory.readBytes] at h
        split at h
        · next b' bs' hb hbs =>
          cases h
          obtain ⟨hl, hi⟩ := ih.mp hbs
          refine ⟨by simp [hl], fun i hi' => ?_⟩
          cases i with
          | zero => simpa using hb
          | succ i => simpa [Nat.add_assoc, Nat.add_comm 1 i] using hi i (by omega)
        · cases h
      · rintro ⟨hl, hi⟩
        have hb : m.read a = some b := by simpa using hi 0 (by omega)
        have hbs : m.readBytes (a + 1) n = some bs :=
          ih.mpr ⟨by simpa using hl, fun i hn => by
            simpa [Nat.add_assoc, Nat.add_comm 1 i] using hi (i + 1) (by omega)⟩
        simp [Memory.readBytes, hb, hbs]

theorem Memory.readBytes_isSome {m : Memory} {a n : Nat} :
    (Memory.readBytes m a n).isSome = true ↔ ∀ i, i < n → (m.read (a + i)).isSome = true := by
  induction n generalizing a with
  | zero => simp [Memory.readBytes]
  | succ n ih =>
    have hrec : (m.readBytes a (n + 1)).isSome = ((m.read a).isSome && (m.readBytes (a + 1) n).isSome) := by
      simp only [Memory.readBytes]; split
      · simp [*]
      · cases h1 : m.read a <;> cases h2 : m.readBytes (a + 1) n <;> simp_all
    rw [hrec, Bool.and_eq_true, ih]
    constructor
    · rintro ⟨h0, h⟩ i hi
      cases i with
      | zero => simpa using h0
      | succ i => simpa [Nat.add_assoc, Nat.add_comm 1 i] using h i (by omega)
    · intro h
      exact ⟨by simpa using h 0 (by omega), fun i hi => by
        simpa [Nat.add_assoc, Nat.add_comm 1 i] using h (i + 1) (by omega)⟩

/-! ## The canonical form -/

theorem Memory.within_mono {lo lo' hi : Nat} {m : Memory} (h : Memory.within lo hi m = true) (hlo : lo' ≤ lo) :
    Memory.within lo' hi m = true := by
  cases m with
  | nil => rfl
  | cons c m =>
    obtain ⟨b, w⟩ := c
    simp only [Memory.within, Bool.and_eq_true, decide_eq_true_eq] at h ⊢
    exact ⟨⟨by omega, h.1.2⟩, h.2⟩

theorem Memory.within_write {lo hi : Nat} {m : Memory} {a : Nat} {v : Byte} (h : Memory.within lo hi m = true)
    (hlo : lo ≤ a) (hhi : a < hi) : Memory.within lo hi (Memory.write m a v) = true := by
  induction m generalizing lo with
  | nil => simp [Memory.write, Memory.within, hlo, hhi]
  | cons c m ih =>
    obtain ⟨b, w⟩ := c
    simp only [Memory.within, Bool.and_eq_true, decide_eq_true_eq] at h
    simp only [Memory.write]
    split
    · simp only [Memory.within, Bool.and_eq_true, decide_eq_true_eq]
      exact ⟨⟨hlo, hhi⟩, ⟨by omega, h.1.2⟩, h.2⟩
    · split
      · subst_vars
        simp only [Memory.within, Bool.and_eq_true, decide_eq_true_eq]
        exact ⟨⟨hlo, hhi⟩, h.2⟩
      · simp only [Memory.within, Bool.and_eq_true, decide_eq_true_eq]
        exact ⟨h.1, ih h.2 (by omega)⟩

/-- Writing a buffer byte keeps the canonical form. -/
theorem Memory.wf_write {m : Memory} {a : Nat} {v : Byte} (h : m.wf = true) (hlo : blkBase ≤ a) (hhi : a < bufferEnd) :
    (Memory.write m a v).wf = true := Memory.within_write h hlo hhi

/-- Writing consecutive buffer bytes keeps the canonical form. -/
theorem Memory.wf_writeBytes {vs : List Byte} {m : Memory} {a : Nat} (h : m.wf = true) (hlo : blkBase ≤ a)
    (hhi : a + vs.length ≤ bufferEnd) : (Memory.writeBytes m a vs).wf = true := by
  induction vs generalizing m a with
  | nil => rwa [Memory.writeBytes_nil]
  | cons v vs ih =>
    simp only [List.length_cons] at hhi
    rw [Memory.writeBytes_cons]
    exact ih (Memory.wf_write h hlo (by omega)) (by omega) (by omega)

/-- Free values keep the canonical form. -/
theorem Memory.wf_havoc {k : Nat} {m : Memory} (h : m.wf = true) : (Memory.havoc k m).wf = true := by
  have aux : ∀ lo, Memory.within lo bufferEnd m = true → Memory.within lo bufferEnd (Memory.havoc k m) = true := by
    clear h
    induction m with
    | nil => exact fun _ => id
    | cons c m ih =>
      obtain ⟨b, w⟩ := c
      intro lo
      simp only [Memory.havoc, Memory.within, Bool.and_eq_true, decide_eq_true_eq]
      exact fun ⟨h1, h2⟩ => ⟨h1, ih _ h2⟩
  exact aux _ h

/-- In a canonical memory only buffer offsets hold a byte. -/
theorem Memory.read_eq_none {m : Memory} {x : Nat} (h : m.wf = true) (hx : x < blkBase ∨ bufferEnd ≤ x) :
    m.read x = none := by
  have aux : ∀ lo, Memory.within lo bufferEnd m = true → (x < lo ∨ bufferEnd ≤ x) → m.read x = none := by
    intro lo
    clear h hx
    induction m generalizing lo with
    | nil => intros; rfl
    | cons c m ih =>
      obtain ⟨b, w⟩ := c
      simp only [Memory.within, Bool.and_eq_true, decide_eq_true_eq, Memory.read]
      rintro ⟨⟨h1, h2⟩, h3⟩ hx
      rw [if_neg (by omega)]
      exact ih _ h3 (by omega)
  exact aux _ h hx

@[simp] theorem State.reset_mem_wf : State.reset.mem.wf = true := rfl

end Sys2Proof.Machine
end

