-- ==== Sys2Proof/Laws/State.lean ====
section
/-! SUPPORT. One lemma per field of `State` and per named update, so that no proof unfolds a record update. -/

namespace Sys2Proof.Machine

section accept
variable (i : Instr) (s : State)
@[simp] theorem accept_h : (accept i s).h = s.h := rfl
@[simp] theorem accept_mem : (accept i s).mem = s.mem := rfl
@[simp] theorem accept_digValid : (accept i s).digValid = s.digValid := rfl
@[simp] theorem accept_mlenLo : (accept i s).mlenLo = s.mlenLo := rfl
@[simp] theorem accept_mlenHi : (accept i s).mlenHi = s.mlenHi := rfl
@[simp] theorem accept_phase : (accept i s).phase = s.phase := rfl
@[simp] theorem accept_complete : (accept i s).complete = s.complete := rfl
@[simp] theorem accept_busy : (accept i s).busy = true := rfl
@[simp] theorem accept_pending : (accept i s).pending = some i := rfl
@[simp] theorem accept_fault : (accept i s).fault = s.fault := rfl
@[simp] theorem accept_fcode : (accept i s).fcode = s.fcode := rfl
@[simp] theorem accept_finfo0 : (accept i s).finfo0 = s.finfo0 := rfl
@[simp] theorem accept_finfo1 : (accept i s).finfo1 = s.finfo1 := rfl
@[simp] theorem accept_inputs : (accept i s).inputs = s.inputs := rfl
@[simp] theorem accept_reply : (accept i s).reply = s.reply := rfl
@[simp] theorem accept_fresh : (accept i s).fresh = s.fresh := rfl
@[simp] theorem accept_maxMsgBytes : (accept i s).maxMsgBytes = s.maxMsgBytes := rfl
end accept

section finish
variable (s : State)
@[simp] theorem finish_h : (finish s).h = s.h := rfl
@[simp] theorem finish_mem : (finish s).mem = s.mem := rfl
@[simp] theorem finish_digValid : (finish s).digValid = s.digValid := rfl
@[simp] theorem finish_mlenLo : (finish s).mlenLo = s.mlenLo := rfl
@[simp] theorem finish_mlenHi : (finish s).mlenHi = s.mlenHi := rfl
@[simp] theorem finish_phase : (finish s).phase = s.phase := rfl
@[simp] theorem finish_complete : (finish s).complete = s.complete := rfl
@[simp] theorem finish_busy : (finish s).busy = false := rfl
@[simp] theorem finish_pending : (finish s).pending = none := rfl
@[simp] theorem finish_fault : (finish s).fault = s.fault := rfl
@[simp] theorem finish_fcode : (finish s).fcode = s.fcode := rfl
@[simp] theorem finish_finfo0 : (finish s).finfo0 = s.finfo0 := rfl
@[simp] theorem finish_finfo1 : (finish s).finfo1 = s.finfo1 := rfl
@[simp] theorem finish_inputs : (finish s).inputs = s.inputs := rfl
@[simp] theorem finish_reply : (finish s).reply = s.reply := rfl
@[simp] theorem finish_fresh : (finish s).fresh = s.fresh := rfl
@[simp] theorem finish_maxMsgBytes : (finish s).maxMsgBytes = s.maxMsgBytes := rfl
end finish

section raiseFault
variable (c : FaultCode) (acc : HostAccess) (s : State)
@[simp] theorem raiseFault_h : (raiseFault c acc s).h = s.h.map fun _ => freeHash s.fresh := rfl
@[simp] theorem raiseFault_mem : (raiseFault c acc s).mem = Memory.havoc s.fresh s.mem := rfl
@[simp] theorem raiseFault_digValid : (raiseFault c acc s).digValid = s.digValid := rfl
@[simp] theorem raiseFault_mlenLo : (raiseFault c acc s).mlenLo = s.mlenLo := rfl
@[simp] theorem raiseFault_mlenHi : (raiseFault c acc s).mlenHi = s.mlenHi := rfl
@[simp] theorem raiseFault_phase : (raiseFault c acc s).phase = s.phase := rfl
@[simp] theorem raiseFault_complete : (raiseFault c acc s).complete = s.complete := rfl
@[simp] theorem raiseFault_busy : (raiseFault c acc s).busy = false := rfl
@[simp] theorem raiseFault_pending : (raiseFault c acc s).pending = none := rfl
@[simp] theorem raiseFault_fault : (raiseFault c acc s).fault = true := rfl
@[simp] theorem raiseFault_fcode : (raiseFault c acc s).fcode = c.code := rfl
@[simp] theorem raiseFault_finfo0 : (raiseFault c acc s).finfo0 = acc.info0 := rfl
@[simp] theorem raiseFault_finfo1 : (raiseFault c acc s).finfo1 = acc.info1 := rfl
@[simp] theorem raiseFault_inputs : (raiseFault c acc s).inputs = s.inputs := rfl
@[simp] theorem raiseFault_reply : (raiseFault c acc s).reply = acc.unspecifiedReply s.fresh := rfl
@[simp] theorem raiseFault_fresh : (raiseFault c acc s).fresh = s.fresh + 1 := rfl
@[simp] theorem raiseFault_maxMsgBytes : (raiseFault c acc s).maxMsgBytes = s.maxMsgBytes := rfl
end raiseFault

section hardwareReset
variable (s : State)
@[simp] theorem hardwareReset_h : (hardwareReset s).h = none := rfl
@[simp] theorem hardwareReset_mem : (hardwareReset s).mem = [] := rfl
@[simp] theorem hardwareReset_digValid : (hardwareReset s).digValid = false := rfl
@[simp] theorem hardwareReset_mlenLo : (hardwareReset s).mlenLo = none := rfl
@[simp] theorem hardwareReset_mlenHi : (hardwareReset s).mlenHi = none := rfl
@[simp] theorem hardwareReset_phase : (hardwareReset s).phase = .uninit := rfl
@[simp] theorem hardwareReset_complete : (hardwareReset s).complete = false := rfl
@[simp] theorem hardwareReset_busy : (hardwareReset s).busy = false := rfl
@[simp] theorem hardwareReset_pending : (hardwareReset s).pending = none := rfl
@[simp] theorem hardwareReset_fault : (hardwareReset s).fault = false := rfl
@[simp] theorem hardwareReset_fcode : (hardwareReset s).fcode = 0 := rfl
@[simp] theorem hardwareReset_finfo0 : (hardwareReset s).finfo0 = 0 := rfl
@[simp] theorem hardwareReset_finfo1 : (hardwareReset s).finfo1 = 0 := rfl
@[simp] theorem hardwareReset_inputs : (hardwareReset s).inputs = s.inputs := rfl
@[simp] theorem hardwareReset_reply : (hardwareReset s).reply = .silent := rfl
@[simp] theorem hardwareReset_fresh : (hardwareReset s).fresh = s.fresh := rfl
@[simp] theorem hardwareReset_maxMsgBytes : (hardwareReset s).maxMsgBytes = s.maxMsgBytes := rfl
end hardwareReset

section answer
variable (r : Reply) (s : State)
@[simp] theorem answer_h : (answer r s).h = s.h := rfl
@[simp] theorem answer_mem : (answer r s).mem = s.mem := rfl
@[simp] theorem answer_digValid : (answer r s).digValid = s.digValid := rfl
@[simp] theorem answer_mlenLo : (answer r s).mlenLo = s.mlenLo := rfl
@[simp] theorem answer_mlenHi : (answer r s).mlenHi = s.mlenHi := rfl
@[simp] theorem answer_phase : (answer r s).phase = s.phase := rfl
@[simp] theorem answer_complete : (answer r s).complete = s.complete := rfl
@[simp] theorem answer_busy : (answer r s).busy = s.busy := rfl
@[simp] theorem answer_pending : (answer r s).pending = s.pending := rfl
@[simp] theorem answer_fault : (answer r s).fault = s.fault := rfl
@[simp] theorem answer_fcode : (answer r s).fcode = s.fcode := rfl
@[simp] theorem answer_finfo0 : (answer r s).finfo0 = s.finfo0 := rfl
@[simp] theorem answer_finfo1 : (answer r s).finfo1 = s.finfo1 := rfl
@[simp] theorem answer_inputs : (answer r s).inputs = s.inputs := rfl
@[simp] theorem answer_reply : (answer r s).reply = r := rfl
@[simp] theorem answer_fresh : (answer r s).fresh = s.fresh := rfl
@[simp] theorem answer_maxMsgBytes : (answer r s).maxMsgBytes = s.maxMsgBytes := rfl
end answer

section dropInput
variable (s : State)
@[simp] theorem dropInput_h : (dropInput s).h = s.h := rfl
@[simp] theorem dropInput_mem : (dropInput s).mem = s.mem := rfl
@[simp] theorem dropInput_digValid : (dropInput s).digValid = s.digValid := rfl
@[simp] theorem dropInput_mlenLo : (dropInput s).mlenLo = s.mlenLo := rfl
@[simp] theorem dropInput_mlenHi : (dropInput s).mlenHi = s.mlenHi := rfl
@[simp] theorem dropInput_phase : (dropInput s).phase = s.phase := rfl
@[simp] theorem dropInput_complete : (dropInput s).complete = s.complete := rfl
@[simp] theorem dropInput_busy : (dropInput s).busy = s.busy := rfl
@[simp] theorem dropInput_pending : (dropInput s).pending = s.pending := rfl
@[simp] theorem dropInput_fault : (dropInput s).fault = s.fault := rfl
@[simp] theorem dropInput_fcode : (dropInput s).fcode = s.fcode := rfl
@[simp] theorem dropInput_finfo0 : (dropInput s).finfo0 = s.finfo0 := rfl
@[simp] theorem dropInput_finfo1 : (dropInput s).finfo1 = s.finfo1 := rfl
@[simp] theorem dropInput_inputs : (dropInput s).inputs = s.inputs.tail := rfl
@[simp] theorem dropInput_reply : (dropInput s).reply = s.reply := rfl
@[simp] theorem dropInput_fresh : (dropInput s).fresh = s.fresh := rfl
@[simp] theorem dropInput_maxMsgBytes : (dropInput s).maxMsgBytes = s.maxMsgBytes := rfl
end dropInput

section placeCommand
variable (w : Word) (s : State)
@[simp] theorem placeCommand_h : (placeCommand w s).h = s.h := rfl
@[simp] theorem placeCommand_mem : (placeCommand w s).mem = s.mem := rfl
@[simp] theorem placeCommand_digValid : (placeCommand w s).digValid = s.digValid := rfl
@[simp] theorem placeCommand_mlenLo : (placeCommand w s).mlenLo = s.mlenLo := rfl
@[simp] theorem placeCommand_mlenHi : (placeCommand w s).mlenHi = s.mlenHi := rfl
@[simp] theorem placeCommand_phase : (placeCommand w s).phase = s.phase := rfl
@[simp] theorem placeCommand_complete : (placeCommand w s).complete = s.complete := rfl
@[simp] theorem placeCommand_busy : (placeCommand w s).busy = false := rfl
@[simp] theorem placeCommand_pending : (placeCommand w s).pending = none := rfl
@[simp] theorem placeCommand_fault : (placeCommand w s).fault = false := rfl
@[simp] theorem placeCommand_fcode : (placeCommand w s).fcode = 0 := rfl
@[simp] theorem placeCommand_finfo0 : (placeCommand w s).finfo0 = 0 := rfl
@[simp] theorem placeCommand_finfo1 : (placeCommand w s).finfo1 = 0 := rfl
@[simp] theorem placeCommand_inputs : (placeCommand w s).inputs = .access (cmdWrite w) :: s.inputs := rfl
@[simp] theorem placeCommand_reply : (placeCommand w s).reply = s.reply := rfl
@[simp] theorem placeCommand_fresh : (placeCommand w s).fresh = s.fresh := rfl
@[simp] theorem placeCommand_maxMsgBytes : (placeCommand w s).maxMsgBytes = s.maxMsgBytes := rfl
end placeCommand

end Sys2Proof.Machine
end

