-- ==== Sys2Proof/Laws/Ops.lean ====
section
/-! SUPPORT. One lemma per shared operation that says everything it can do; later proofs cite these and unfold neither
`exec` nor `step`. -/

namespace Sys2Proof.Machine

/-! ## Operands -/

@[simp] theorem bytesBE32_length (x : Word) : (bytesBE32 x).length = 4 := by simp [bytesBE32]

@[simp] theorem bytesBE64_length (x : BitVec 64) : (bytesBE64 x).length = 8 := by simp [bytesBE64]

@[simp] theorem digest_length (x : Words8) : x.digest.length = 32 := by
  simp [Words8.digest, Words8.toList]

theorem padShapeA_length {len : Nat} (l : BitVec 64) (h : len ≤ 55) : (padShapeA len l).length = 64 - len := by
  simp [padShapeA]; omega

theorem padShapeB_length {len : Nat} (h : len ≤ 63) : (padShapeB len).length = 64 - len := by
  simp [padShapeB]; omega

@[simp] theorem padShapeC_length (l : BitVec 64) : (padShapeC l).length = 64 := by simp [padShapeC]

/-- The block operand: 64 bytes, each the defined byte of BLK at its index. -/
theorem block_eq_some {s : State} {bs : List Byte} :
    s.block = some bs ↔ bs.length = 64 ∧ ∀ i, i < 64 → s.mem.read (0x40 + i) = bs[i]? :=
  Memory.readBytes_eq_some

/-- The block operand exists iff every BLKdef bit is 1. -/
theorem block_isSome {s : State} : s.block.isSome = true ↔ ∀ i, i < 64 → s.blkDef i = true :=
  Memory.readBytes_isSome

/-- The length operand exists iff both halves do. -/
theorem mlen_eq_some {s : State} {n : BitVec 64} :
    s.mlen = some n ↔ ∃ hi lo, s.mlenHi = some hi ∧ s.mlenLo = some lo ∧ n = BitVec.ofNat 64 (hi.toNat * 2 ^ 32 + lo.toNat) := by
  unfold State.mlen
  split
  · next hi lo h1 h2 => simp [h1, h2, eq_comm]
  · next h => exact ⟨nofun, fun ⟨hi, lo, h1, h2, _⟩ => absurd h2 (by simpa [h1] using h hi lo h1)⟩

theorem mlen_eq_none {s : State} : s.mlen = none ↔ s.mlenHi = none ∨ s.mlenLo = none := by
  unfold State.mlen
  split
  · next h1 h2 => simp [h1, h2]
  · next h => cases h1 : s.mlenHi <;> cases h2 : s.mlenLo <;> simp_all

/-! ## The issue half -/

/-- `issueFault` reads PHASE, the block, MLEN and the limit, nothing else. -/
theorem issueFault_congr {s t : State} (i : Instr) (hp : t.phase = s.phase) (hm : t.mem = s.mem)
    (hl : t.mlenLo = s.mlenLo) (hh : t.mlenHi = s.mlenHi) (hx : t.maxMsgBytes = s.maxMsgBytes) :
    issueFault i t = issueFault i s := by
  simp [issueFault, operandFault, State.block, State.mlen, hp, hm, hl, hh, hx]

/-- The issue half either records the first failed check or accepts the command. -/
theorem issue_cases (i : Instr) (s : State) :
    (∃ code, issueFault i s = some code ∧ issue i s = raiseFault code (cmdWrite (encode i)) s) ∨
    (issueFault i s = none ∧ issue i s = accept i s) := by
  unfold issue
  cases issueFault i s with
  | none => exact .inr ⟨rfl, rfl⟩
  | some code => exact .inl ⟨code, rfl, rfl⟩

/-- A command that passes its checks: the phase allows it and its operands are there. -/
theorem issueFault_eq_none {i : Instr} {s : State} :
    issueFault i s = none ↔ s.phase.allows i = true ∧ operandFault i s = none := by
  unfold issueFault; split <;> simp_all

theorem operandFault_absorb_eq_none {s : State} : operandFault .absorb s = none ↔ s.block.isSome = true := by
  cases h : s.block <;> simp [operandFault, h]

theorem operandFault_pad_eq_none {s : State} {len : Fin 64} :
    operandFault (.pad len) s = none ↔ ∃ n, s.mlen = some n ∧ lengthExceeds n s.maxMsgBytes = false := by
  cases h : s.mlen <;> simp [operandFault, h]

theorem operandFault_padnull_eq_none {s : State} :
    operandFault .padnull s = none ↔ ∃ n, s.mlen = some n ∧ lengthExceeds n s.maxMsgBytes = false := by
  cases h : s.mlen <;> simp [operandFault, h]

/-! ## `exec` -/

/-- While BUSY = 0 a command's meaning is its issue half. -/
theorem exec_of_not_busy {s : State} (i : Instr) (h : s.busy = false) : exec i s = .next (issue i s) := by
  cases i <;> simp [exec, execInit, execAbsorb, execPad, execPadnull, execExtract, execClear, h]

/-- What a performed command leaves, for each command. -/
inductive Performed (s : State) : Instr → State → Prop where
  | init : Performed s .init (performInit s)
  | absorb {h block phase} (hh : s.h = some h) (hb : s.block = some block) (hp : s.phase.afterAbsorb = some phase) :
      Performed s .absorb (finish { s with h := some (compress h block), phase := phase })
  | padA {len n} (hn : s.mlen = some n) (ha : shapeA len = true) :
      Performed s (.pad len) (finish { s with
        mem := s.mem.writeBytes (blkBase + len.val) (padShapeA len.val (bitCount n))
        complete := true
        phase := .paddedFinal })
  | padB {len n} (hn : s.mlen = some n) (hb : shapeA len = false) :
      Performed s (.pad len) (finish { s with
        mem := s.mem.writeBytes (blkBase + len.val) (padShapeB len.val)
        complete := false
        phase := .paddedMore })
  | padnull {n} (hn : s.mlen = some n) :
      Performed s .padnull (finish { s with
        mem := s.mem.writeBytes blkBase (padShapeC (bitCount n))
        complete := true
        phase := .paddedFinal })
  | extract {h} (hh : s.h = some h) :
      Performed s .extract (finish { s with mem := s.mem.writeBytes digBase h.digest, digValid := true })
  | clear : Performed s .clear (performClear s)

/-- What a performed command never touches: the length registers, the fault record, the model's own fields; and the block
is free again (70_reset_and_hazards.md R234). -/
theorem Performed.frame {s t : State} {i : Instr} (h : Performed s i t) :
    t.busy = false ∧ t.pending = none ∧ t.fault = s.fault ∧ t.fcode = s.fcode ∧ t.finfo0 = s.finfo0 ∧
    t.finfo1 = s.finfo1 ∧ t.mlenLo = s.mlenLo ∧ t.mlenHi = s.mlenHi ∧ t.inputs = s.inputs ∧ t.reply = s.reply ∧
    t.fresh = s.fresh ∧ t.maxMsgBytes = s.maxMsgBytes := by
  cases h <;> exact ⟨rfl, rfl, rfl, rfl, rfl, rfl, rfl, rfl, rfl, rfl, rfl, rfl⟩

/-- The memory a performed command leaves: the old one, or the old one with the bytes of a pad (which end at BLK[63]) or
of the digest written. -/
theorem Performed.mem_cases {s t : State} {i : Instr} (h : Performed s i t) :
    t.mem = s.mem ∨
    (∃ (k : Nat) (vs : List Byte), t.mem = s.mem.writeBytes (blkBase + k) vs ∧ k + vs.length = 64 ∧
      (i = .padnull ∨ ∃ len : Fin 64, i = .pad len ∧ k = len.val)) ∨
    (∃ vs : List Byte, t.mem = s.mem.writeBytes digBase vs ∧ vs.length = 32 ∧ i = .extract) := by
  cases h with
  | init => exact .inl rfl
  | clear => exact .inl rfl
  | absorb hh hb hp => exact .inl rfl
  | @padA len n hn ha =>
    have hl := padShapeA_length (bitCount n) (of_decide_eq_true ha)
    exact .inr (.inl ⟨_, _, rfl, by rw [hl]; omega, .inr ⟨len, rfl, rfl⟩⟩)
  | @padB len n hn hb =>
    have hl := padShapeB_length (len := len.val) (by omega)
    exact .inr (.inl ⟨_, _, rfl, by rw [hl]; omega, .inr ⟨len, rfl, rfl⟩⟩)
  | @padnull n hn => exact .inr (.inl ⟨0, padShapeC (bitCount n), rfl, by rw [padShapeC_length], .inl rfl⟩)
  | extract hh => exact .inr (.inr ⟨_, rfl, digest_length _, rfl⟩)

/-- A performed command keeps the canonical form of the buffers. -/
theorem Performed.memWf {s t : State} {i : Instr} (h : Performed s i t) (hm : s.mem.wf = true) : t.mem.wf = true := by
  rcases h.mem_cases with e | ⟨k, vs, e, hk, -⟩ | ⟨vs, e, hk, -⟩
  · rwa [e]
  · rw [e]; exact Memory.wf_writeBytes hm (by omega) (by simp only [blkBase, bufferEnd]; omega)
  · rw [e]; exact Memory.wf_writeBytes hm (by simp only [blkBase, digBase]; omega) (by simp only [digBase, bufferEnd]; omega)

/-- Only EXTRACT writes DIG. -/
theorem Performed.read_digest {s t : State} {i : Instr} (h : Performed s i t) (hi : i ≠ .extract) {a : Nat}
    (ha : digBase ≤ a) : t.mem.read a = s.mem.read a := by
  rcases h.mem_cases with e | ⟨k, vs, e, hk, -⟩ | ⟨vs, e, -, hi'⟩
  · rw [e]
  · rw [e]; exact Memory.read_writeBytes_outside (.inr (by simp only [blkBase, digBase] at *; omega))
  · exact absurd hi' hi

/-- While BUSY = 1 a command's meaning is its perform half: if it answers a next state, that is the performed one. -/
theorem exec_next_of_busy {s t : State} {i : Instr} (hb : s.busy = true) (h : exec i s = .next t) : Performed s i t := by
  cases i with
  | init => simp [exec, execInit, hb] at h; exact h ▸ .init
  | clear => simp [exec, execClear, hb] at h; exact h ▸ .clear
  | absorb =>
    simp only [exec, execAbsorb, hb, if_true, performAbsorb] at h
    split at h
    · next h' block hh hbl =>
      split at h
      · next p hp => cases h; exact .absorb hh hbl hp
      · cases h
    · cases h
  | pad len =>
    simp only [exec, execPad, hb, if_true, performPad] at h
    split at h
    · next n hn =>
      split at h
      · next ha => cases h; exact .padA hn ha
      · next ha => cases h; exact .padB hn (by simpa using ha)
    · cases h
  | padnull =>
    simp only [exec, execPadnull, hb, if_true, performPadnull] at h
    split at h
    · next n hn => cases h; exact .padnull hn
    · cases h
  | extract =>
    simp only [exec, execExtract, hb, if_true, performExtract] at h
    split at h
    · next h' hh => cases h; exact .extract hh
    · cases h

/-- A command that passed its checks, with H defined outside UNINIT, is performed. -/
theorem exec_busy_of_accepted {s : State} {i : Instr} (hb : s.busy = true) (hi : issueFault i s = none)
    (hh : s.h = none → s.phase = .uninit) : ∃ t, exec i s = .next t := by
  obtain ⟨ha, ho⟩ := issueFault_eq_none.mp hi
  have hdef : s.phase ≠ .uninit → ∃ w, s.h = some w := fun hp =>
    Option.ne_none_iff_exists'.mp fun h => hp (hh h)
  cases i with
  | init => exact ⟨performInit s, by simp [exec, execInit, hb]⟩
  | clear => exact ⟨performClear s, by simp [exec, execClear, hb]⟩
  | absorb =>
    obtain ⟨b, hbl⟩ := Option.isSome_iff_exists.mp (operandFault_absorb_eq_none.mp ho)
    obtain ⟨p, hp⟩ : ∃ p, s.phase.afterAbsorb = some p := Option.isSome_iff_exists.mp (by
      simpa [Phase.allows, Phase.next] using ha)
    obtain ⟨w, hw⟩ := hdef (by rintro h; simp [h, Phase.afterAbsorb] at hp)
    exact ⟨_, by simp only [exec, execAbsorb, hb, if_true, performAbsorb, hw, hbl, hp]; rfl⟩
  | pad len =>
    obtain ⟨n, hn, _⟩ := operandFault_pad_eq_none.mp ho
    simp only [exec, execPad, hb, if_true, performPad, hn]
    split <;> exact ⟨_, rfl⟩
  | padnull =>
    obtain ⟨n, hn, _⟩ := operandFault_padnull_eq_none.mp ho
    exact ⟨_, by simp only [exec, execPadnull, hb, if_true, performPadnull, hn]; rfl⟩
  | extract =>
    obtain ⟨w, hw⟩ := hdef (by rintro h; simp [h, Phase.allows, Phase.next] at ha)
    exact ⟨_, by simp only [exec, execExtract, hb, if_true, performExtract, hw]; rfl⟩

end Sys2Proof.Machine
end

