-- ==== Sys2Proof/Laws/Block.lean ====
section
/-! SUPPORT. What a command does to the block depends on the block alone: not on the inputs that wait, the last reply or
the free-value counter. -/

namespace Sys2Proof.Machine

theorem SameBlock.refl (s : State) : SameBlock s s := by constructor <;> rfl

theorem SameBlock.symm {s t : State} (h : SameBlock s t) : SameBlock t s := by
  obtain ⟨a, b, c, d, e, f, g, h, i, j, k, l, m, n⟩ := h
  exact ⟨a.symm, b.symm, c.symm, d.symm, e.symm, f.symm, g.symm, h.symm, i.symm, j.symm, k.symm, l.symm, m.symm, n.symm⟩

theorem SameBlock.trans {s t u : State} (h : SameBlock s t) (h' : SameBlock t u) : SameBlock s u := by
  obtain ⟨a, b, c, d, e, f, g, h, i, j, k, l, m, n⟩ := h
  obtain ⟨a', b', c', d', e', f', g', h', i', j', k', l', m', n'⟩ := h'
  exact ⟨a'.trans a, b'.trans b, c'.trans c, d'.trans d, e'.trans e, f'.trans f, g'.trans g, h'.trans h, i'.trans i,
    j'.trans j, k'.trans k, l'.trans l, m'.trans m, n'.trans n⟩

/-- Equal blocks have the same operands. -/
theorem SameBlock.block_eq {s t : State} (h : SameBlock s t) : t.block = s.block := by simp [State.block, h.mem]

theorem SameBlock.mlen_eq {s t : State} (h : SameBlock s t) : t.mlen = s.mlen := by
  simp [State.mlen, h.mlenLo, h.mlenHi]

/-- A busy command that answers a next state does so from every equal block, and leaves equal blocks. -/
theorem SameBlock.exec_busy {s s' t : State} {i : Instr} (h : SameBlock s s') (hb : s.busy = true)
    (ht : exec i s = .next t) : ∃ t', exec i s' = .next t' ∧ SameBlock t t' := by
  have hb' : s'.busy = true := h.busy.trans hb
  cases exec_next_of_busy hb ht with
  | init =>
    refine ⟨performInit s', by simp [exec, execInit, hb'], ?_⟩
    constructor <;> first | rfl | simp [performInit, h.mem, h.digValid, h.mlenLo, h.mlenHi, h.complete, h.fault,
      h.fcode, h.finfo0, h.finfo1, h.param]
  | clear =>
    refine ⟨performClear s', by simp [exec, execClear, hb'], ?_⟩
    constructor <;> first | rfl | simp [performClear, h.mem, h.digValid, h.mlenLo, h.mlenHi, h.complete, h.fault,
      h.fcode, h.finfo0, h.finfo1, h.param]
  | @absorb w block phase hh hbl hp =>
    refine ⟨finish { s' with h := some (compress w block), phase := phase }, ?_, ?_⟩
    · simp only [exec, execAbsorb, hb', if_true, performAbsorb, h.h, hh, h.block_eq, hbl, h.phase, hp]
    · constructor <;> first | rfl | simp [h.mem, h.digValid, h.mlenLo, h.mlenHi, h.complete, h.fault, h.fcode,
        h.finfo0, h.finfo1, h.param]
  | @padA len n hn ha =>
    refine ⟨finish { s' with
      mem := s'.mem.writeBytes (blkBase + len.val) (padShapeA len.val (bitCount n))
      complete := true
      phase := .paddedFinal }, ?_, ?_⟩
    · simp only [exec, execPad, hb', if_true, performPad, h.mlen_eq, hn, ha]
    · constructor <;> first | rfl | simp [h.h, h.mem, h.digValid, h.mlenLo, h.mlenHi, h.fault, h.fcode, h.finfo0,
        h.finfo1, h.param]
  | @padB len n hn ha =>
    refine ⟨finish { s' with
      mem := s'.mem.writeBytes (blkBase + len.val) (padShapeB len.val)
      complete := false
      phase := .paddedMore }, ?_, ?_⟩
    · simp only [exec, execPad, hb', if_true, performPad, h.mlen_eq, hn, ha, Bool.false_eq_true, if_false]
    · constructor <;> first | rfl | simp [h.h, h.mem, h.digValid, h.mlenLo, h.mlenHi, h.fault, h.fcode, h.finfo0,
        h.finfo1, h.param]
  | @padnull n hn =>
    refine ⟨finish { s' with
      mem := s'.mem.writeBytes blkBase (padShapeC (bitCount n))
      complete := true
      phase := .paddedFinal }, ?_, ?_⟩
    · simp only [exec, execPadnull, hb', if_true, performPadnull, h.mlen_eq, hn]
    · constructor <;> first | rfl | simp [h.h, h.mem, h.digValid, h.mlenLo, h.mlenHi, h.fault, h.fcode, h.finfo0,
        h.finfo1, h.param]
  | @extract w hh =>
    refine ⟨finish { s' with mem := s'.mem.writeBytes digBase w.digest, digValid := true }, ?_, ?_⟩
    · simp only [exec, execExtract, hb', if_true, performExtract, h.h, hh]
    · constructor <;> first | rfl | simp [h.h, h.mem, h.mlenLo, h.mlenHi, h.phase, h.complete, h.fault, h.fcode,
        h.finfo0, h.finfo1, h.param]

end Sys2Proof.Machine
end

