-- ==== Sys2Proof/Laws/PerInstr.lean ====
section
/-! SUPPORT. Statements about every command as syntax, one lemma per constructor. -/

namespace Sys2Proof.Laws.OperandFits

/-- The command is well-formed and its word is OPC + LEN·0x100, so RSV is 0 (30_encoding.md R80 to R84). -/
def Statement (i : Instr) : Prop :=
  i.wellFormed = true ∧ (encode i).toNat = i.opcode.toNat + i.lenField.toNat * 0x100 ∧ rsvField (encode i) = 0

theorem init : Statement .init := by unfold Statement; decide

theorem absorb : Statement .absorb := by unfold Statement; decide

theorem pad (len : Fin 64) : Statement (.pad len) := by unfold Statement; revert len; decide

theorem padnull : Statement .padnull := by unfold Statement; decide

theorem extract : Statement .extract := by unfold Statement; decide

theorem clear : Statement .clear := by unfold Statement; decide

end Sys2Proof.Laws.OperandFits
end

