-- ==== Sys2Proof/Laws/Port.lean ====
section
/-! SUPPORT. Everything a host access, a core turn and a step can do, said once. -/

namespace Sys2Proof.Machine

/-! ## A host access -/

/-- What an access that raises no fault does, in an unfaulted block. -/
inductive AccessDone (acc : HostAccess) (s : State) : State → Prop where
  | readStatus (ho : acc.op = .readStatus) : AccessDone acc s (answer (.word s.status) s)
  | readFinfo0 (ho : acc.op = .readFinfo0) : AccessDone acc s (answer (.word s.finfo0) s)
  | readFinfo1 (ho : acc.op = .readFinfo1) : AccessDone acc s (answer (.word s.finfo1) s)
  | readMlenLo {v} (ho : acc.op = .readMlenLo) (hb : s.busy = false) (hv : s.mlenLo = some v) :
      AccessDone acc s (answer (.word v) s)
  | readMlenHi {v} (ho : acc.op = .readMlenHi) (hb : s.busy = false) (hv : s.mlenHi = some v) :
      AccessDone acc s (answer (.word v) s)
  | writeMlenLo {v} (ho : acc.op = .writeMlenLo v) (hb : s.busy = false) :
      AccessDone acc s (answer .silent { s with mlenLo := some v })
  | writeMlenHi {v} (ho : acc.op = .writeMlenHi v) (hb : s.busy = false) :
      AccessDone acc s (answer .silent { s with mlenHi := some v })
  | readBlk {off v} (ho : acc.op = .readBlk off) (hb : s.busy = false) (hv : s.mem.read off = some v) :
      AccessDone acc s (answer (.byte v) s)
  | writeBlk {off v} (ho : acc.op = .writeBlk off v) (hb : s.busy = false) (hp : s.phase.holdsPaddedBlock = false) :
      AccessDone acc s (answer .silent { s with mem := s.mem.write off v })
  | readDig {off v} (ho : acc.op = .readDig off) (hb : s.busy = false) (hd : s.digValid = true)
      (hv : s.mem.read off = some v) : AccessDone acc s (answer (.byte v) s)
  | accepted {w i} (ho : acc.op = .writeCmd w) (hb : s.busy = false) (hd : decode w = .ok i)
      (hi : issueFault i s = none) : AccessDone acc s (accept i (answer .silent s))

/-- Why an access raises a fault, in an unfaulted block, in the order of the checks (60_exceptions.md R202, R203). -/
inductive AccessFaults (acc : HostAccess) (s : State) : FaultCode → Prop where
  | badAccess (hl : acc.legal = false) : AccessFaults acc s .badAccess
  | concurrent (hl : acc.legal = true) (hb : s.busy = true) (hr : acc.readsStatus = false) :
      AccessFaults acc s .concurrent
  | illegalCommand {w e} (hl : acc.legal = true) (hb : s.busy = false) (ho : acc.op = .writeCmd w)
      (hd : decode w = .error e) : AccessFaults acc s .illegalCommand
  | issue {w i code} (hl : acc.legal = true) (hb : s.busy = false) (ho : acc.op = .writeCmd w) (hd : decode w = .ok i)
      (hi : issueFault i s = some code) : AccessFaults acc s code
  | mlenLo (hl : acc.legal = true) (hb : s.busy = false) (ho : acc.op = .readMlenLo) (hv : s.mlenLo = none) :
      AccessFaults acc s .undefinedRead
  | mlenHi (hl : acc.legal = true) (hb : s.busy = false) (ho : acc.op = .readMlenHi) (hv : s.mlenHi = none) :
      AccessFaults acc s .undefinedRead
  | blk {off} (hl : acc.legal = true) (hb : s.busy = false) (ho : acc.op = .readBlk off)
      (hv : s.mem.read off = none) : AccessFaults acc s .undefinedRead
  | bufferHazard {off v} (hl : acc.legal = true) (hb : s.busy = false) (ho : acc.op = .writeBlk off v)
      (hp : s.phase.holdsPaddedBlock = true) : AccessFaults acc s .bufferHazard
  | dig {off} (hl : acc.legal = true) (hb : s.busy = false) (ho : acc.op = .readDig off)
      (hv : s.digValid = false ∨ s.mem.read off = none) : AccessFaults acc s .undefinedRead

/-- A legal write of CMD, MLEN or BLK, and every legal read but those of the status registers, has an operation of its
own: none of them reads a status register. -/
theorem op_of_readsStatus {acc : HostAccess} (h : acc.readsStatus = true) :
    (acc.off = 0x04 ∧ acc.op = .readStatus) ∨ (acc.off = 0x08 ∧ acc.op = .readFinfo0) ∨
    (acc.off = 0x0C ∧ acc.op = .readFinfo1) := by
  obtain ⟨off, width, dir, data⟩ := acc
  simp only [HostAccess.readsStatus, Bool.and_eq_true, beq_iff_eq, Bool.or_eq_true] at h
  obtain ⟨⟨rfl, rfl⟩, (rfl | rfl) | rfl⟩ := h <;> simp [HostAccess.op]

/-- A CMD write stands at offset 0x00, 32 bits wide. -/
theorem writeCmd_access {acc : HostAccess} {w : Word} (hl : acc.legal = true) (ho : acc.op = .writeCmd w) :
    acc = cmdWrite w := by
  obtain ⟨off, width, dir, data⟩ := acc
  cases width <;> cases dir <;> simp [HostAccess.legal, HostAccess.op] at hl ho
  · split at ho <;> cases ho
  · repeat' split at ho
    all_goals cases ho
  · split at ho
    · next h => cases ho; simp [cmdWrite, h]
    · split at ho <;> cases ho

/-- The last match of an access: it faults or it is done. -/
theorem performAccess_cases {acc : HostAccess} {s t : State} (hl : acc.legal = true)
    (hb : s.busy = true → acc.readsStatus = true) (h : performAccess acc s = .next t) :
    (∃ code, AccessFaults acc s code ∧ ∃ s' acc', t = raiseFault code acc' s' ∧
      ((acc' = acc ∧ s' = s) ∨
        ∃ w i, acc.op = .writeCmd w ∧ decode w = .ok i ∧ acc' = cmdWrite (encode i) ∧ s' = answer .silent s)) ∨
    AccessDone acc s t := by
  have hfree : acc.op ≠ .readStatus → acc.op ≠ .readFinfo0 → acc.op ≠ .readFinfo1 → s.busy = false := by
    intro h1 h2 h3
    cases hs : s.busy with
    | false => rfl
    | true => rcases op_of_readsStatus (hb hs) with ⟨_, h⟩ | ⟨_, h⟩ | ⟨_, h⟩ <;> contradiction
  cases ho : acc.op with
  | writeCmd w =>
    have hb0 := hfree (by simp [ho]) (by simp [ho]) (by simp [ho])
    simp only [performAccess, ho, writeCmd] at h
    split at h
    · next e hd => cases h; exact .inl ⟨_, .illegalCommand hl hb0 ho hd, s, acc, rfl, .inl ⟨rfl, rfl⟩⟩
    · next i hd =>
      rw [exec_of_not_busy i (by simpa using hb0)] at h
      cases h
      have hcongr : issueFault i (answer .silent s) = issueFault i s :=
        issueFault_congr i rfl rfl rfl rfl rfl
      rcases issue_cases i (answer .silent s) with ⟨code, hi, he⟩ | ⟨hi, he⟩
      · exact .inl ⟨code, .issue hl hb0 ho hd (hcongr ▸ hi), _, _, he, .inr ⟨w, i, rfl, hd, rfl, rfl⟩⟩
      · exact .inr (he ▸ .accepted ho hb0 hd (hcongr ▸ hi))
  | readStatus => simp only [performAccess, ho] at h; cases h; exact .inr (.readStatus ho)
  | readFinfo0 => simp only [performAccess, ho] at h; cases h; exact .inr (.readFinfo0 ho)
  | readFinfo1 => simp only [performAccess, ho] at h; cases h; exact .inr (.readFinfo1 ho)
  | readMlenLo =>
    have hb0 := hfree (by simp [ho]) (by simp [ho]) (by simp [ho])
    simp only [performAccess, ho] at h
    cases hv : s.mlenLo with
    | none => simp [hv, readOrFault] at h; exact .inl ⟨_, .mlenLo hl hb0 ho hv, s, acc, h.symm, .inl ⟨rfl, rfl⟩⟩
    | some v => simp [hv, readOrFault] at h; exact .inr (h ▸ .readMlenLo ho hb0 hv)
  | readMlenHi =>
    have hb0 := hfree (by simp [ho]) (by simp [ho]) (by simp [ho])
    simp only [performAccess, ho] at h
    cases hv : s.mlenHi with
    | none => simp [hv, readOrFault] at h; exact .inl ⟨_, .mlenHi hl hb0 ho hv, s, acc, h.symm, .inl ⟨rfl, rfl⟩⟩
    | some v => simp [hv, readOrFault] at h; exact .inr (h ▸ .readMlenHi ho hb0 hv)
  | writeMlenLo v =>
    have hb0 := hfree (by simp [ho]) (by simp [ho]) (by simp [ho])
    simp only [performAccess, ho] at h; cases h; exact .inr (.writeMlenLo ho hb0)
  | writeMlenHi v =>
    have hb0 := hfree (by simp [ho]) (by simp [ho]) (by simp [ho])
    simp only [performAccess, ho] at h; cases h; exact .inr (.writeMlenHi ho hb0)
  | readBlk off =>
    have hb0 := hfree (by simp [ho]) (by simp [ho]) (by simp [ho])
    simp only [performAccess, ho] at h
    cases hv : s.mem.read off with
    | none => simp [hv, readOrFault] at h; exact .inl ⟨_, .blk hl hb0 ho hv, s, acc, h.symm, .inl ⟨rfl, rfl⟩⟩
    | some v => simp [hv, readOrFault] at h; exact .inr (h ▸ .readBlk ho hb0 hv)
  | writeBlk off v =>
    have hb0 := hfree (by simp [ho]) (by simp [ho]) (by simp [ho])
    simp only [performAccess, ho] at h
    split at h
    · next hp => cases h; exact .inl ⟨_, .bufferHazard hl hb0 ho hp, s, acc, rfl, .inl ⟨rfl, rfl⟩⟩
    · next hp => cases h; exact .inr (.writeBlk ho hb0 (by simpa using hp))
  | readDig off =>
    have hb0 := hfree (by simp [ho]) (by simp [ho]) (by simp [ho])
    simp only [performAccess, ho] at h
    cases hd : s.digValid with
    | false =>
      simp [hd, readOrFault] at h
      exact .inl ⟨_, .dig hl hb0 ho (.inl hd), s, acc, h.symm, .inl ⟨rfl, rfl⟩⟩
    | true =>
      cases hv : s.mem.read off with
      | none =>
        simp [hd, hv, readOrFault] at h
        exact .inl ⟨_, .dig hl hb0 ho (.inr hv), s, acc, h.symm, .inl ⟨rfl, rfl⟩⟩
      | some v => simp [hd, hv, readOrFault] at h; exact .inr (h ▸ .readDig ho hb0 hd hv)

/-- Everything a host access can do: in a faulted block what R206 says, otherwise a fault or its effect. The fault record
of a failed issue check names the command's own write; the reply of that write is already silent. -/
theorem access_cases {acc : HostAccess} {s t : State} (h : access acc s = .next t) :
    (s.fault = true ∧ t = faultedAccess acc s) ∨
    (s.fault = false ∧ ∃ code, AccessFaults acc s code ∧ ∃ s' acc', t = raiseFault code acc' s' ∧
      ((acc' = acc ∧ s' = s) ∨
        ∃ w i, acc.op = .writeCmd w ∧ decode w = .ok i ∧ acc' = cmdWrite (encode i) ∧ s' = answer .silent s)) ∨
    (s.fault = false ∧ acc.legal = true ∧ AccessDone acc s t) := by
  unfold access at h
  split at h
  · next hf => cases h; exact .inl ⟨hf, rfl⟩
  · next hf =>
    have hf : s.fault = false := by simpa using hf
    split at h
    · next hl =>
      cases h
      exact .inr (.inl ⟨hf, _, .badAccess (by simpa using hl), s, acc, rfl, .inl ⟨rfl, rfl⟩⟩)
    · next hl =>
      have hl : acc.legal = true := by simpa using hl
      split at h
      · next hb =>
        cases h
        simp at hb
        exact .inr (.inl ⟨hf, _, .concurrent hl hb.1 hb.2, s, acc, rfl, .inl ⟨rfl, rfl⟩⟩)
      · next hb =>
        rcases performAccess_cases hl (by simpa using hb) h with hfa | hd
        · exact .inr (.inl ⟨hf, hfa⟩)
        · exact .inr (.inr ⟨hf, hl, hd⟩)

/-- An access always completes. -/
theorem access_next (acc : HostAccess) (s : State) : ∃ t, access acc s = .next t := by
  unfold access
  split
  · exact ⟨_, rfl⟩
  · split
    · exact ⟨_, rfl⟩
    · split
      · exact ⟨_, rfl⟩
      · next hl hb =>
        unfold performAccess
        split <;> try exact ⟨_, rfl⟩
        · next w ho =>
          unfold writeCmd
          split
          · exact ⟨_, rfl⟩
          · have hl' := hl
            have hb0 : s.busy = false := by
              have hacc := writeCmd_access (acc := acc) (by simpa using hl) ho
              rw [hacc] at hb
              simpa [cmdWrite, HostAccess.readsStatus] using hb
            exact ⟨_, exec_of_not_busy _ (by simpa using hb0)⟩
        · split <;> exact ⟨_, rfl⟩

/-- Everything a core turn can do. -/
theorem coreTurn_cases {s t : State} (h : coreTurn s = .next t) :
    ((s.busy = false ∨ s.fault = true) ∧ t = s) ∨
    (s.busy = true ∧ s.fault = false ∧ ∃ i, s.pending = some i ∧ Performed s i t) := by
  unfold coreTurn at h
  split at h
  · next hb =>
    simp at hb
    split at h
    · next i hi => exact .inr ⟨hb.1, hb.2, i, hi, exec_next_of_busy hb.1 h⟩
    · cases h
  · next hb =>
    cases h
    refine .inl ⟨?_, rfl⟩
    cases h1 : s.busy <;> cases h2 : s.fault <;> simp_all

/-- Everything a step can do, by what stands first among the inputs. -/
theorem step_cases {s t : State} (h : step s = .next t) :
    ((s.inputs = [] ∨ ∃ rest, s.inputs = .core :: rest) ∧ coreTurn (dropInput s) = .next t) ∨
    (∃ acc rest, s.inputs = .access acc :: rest ∧ access acc (dropInput s) = .next t) ∨
    (∃ rest, s.inputs = .rst :: rest ∧ t = hardwareReset (dropInput s)) := by
  unfold step turn at h
  split at h
  · next hi =>
    refine .inl ⟨.inl hi, ?_⟩
    have : dropInput s = s := by cases s; simp_all [dropInput]
    rwa [this]
  · next e rest hi =>
    cases e with
    | access acc => exact .inr (.inl ⟨acc, rest, hi, h⟩)
    | core => exact .inl ⟨.inr ⟨rest, hi⟩, h⟩
    | rst => simp [handle] at h; exact .inr (.inr ⟨rest, hi, h.symm⟩)
    | secondHost acc => simp [handle] at h

/-! ## One access for each outcome of its checks -/

theorem access_of_faulted {acc : HostAccess} {s : State} (h : s.fault = true) :
    access acc s = .next (faultedAccess acc s) := by simp [access, h]

theorem access_of_illegal {acc : HostAccess} {s : State} (hf : s.fault = false) (hl : acc.legal = false) :
    access acc s = .next (raiseFault .badAccess acc s) := by simp [access, hf, hl]

theorem access_of_busy {acc : HostAccess} {s : State} (hf : s.fault = false) (hl : acc.legal = true)
    (hb : s.busy = true) (hr : acc.readsStatus = false) :
    access acc s = .next (raiseFault .concurrent acc s) := by simp [access, hf, hl, hb, hr]

theorem access_of_free {acc : HostAccess} {s : State} (hf : s.fault = false) (hl : acc.legal = true)
    (hb : s.busy = false) : access acc s = performAccess acc s := by simp [access, hf, hl, hb]

/-- A read of STATUS, FINFO0 or FINFO1 returns the register, busy or faulted (R57, R58, R206). -/
theorem access_readStatus (v : Word) (s : State) :
    access ⟨0x04, .w32, .read, v⟩ s = .next (answer (.word s.status) s) := by
  simp [access, faultedAccess, performAccess, HostAccess.legal, HostAccess.readsStatus, HostAccess.op]

theorem access_readFinfo0 (v : Word) (s : State) :
    access ⟨0x08, .w32, .read, v⟩ s = .next (answer (.word s.finfo0) s) := by
  simp [access, faultedAccess, performAccess, HostAccess.legal, HostAccess.readsStatus, HostAccess.op]

theorem access_readFinfo1 (v : Word) (s : State) :
    access ⟨0x0C, .w32, .read, v⟩ s = .next (answer (.word s.finfo1) s) := by
  simp [access, faultedAccess, performAccess, HostAccess.legal, HostAccess.readsStatus, HostAccess.op]

/-- A CMD write in a free block runs the decoded command, or raises ILLEGAL_COMMAND (60_exceptions.md R203). -/
theorem access_cmdWrite {w : Word} {s : State} (hf : s.fault = false) (hb : s.busy = false) :
    access (cmdWrite w) s =
      match decode w with
      | .error _ => .next (raiseFault .illegalCommand (cmdWrite w) s)
      | .ok i => exec i (answer .silent s) := by
  rw [access_of_free hf rfl hb]
  rfl

/-! ## One step for each kind of input -/

theorem step_access {s : State} {acc : HostAccess} {rest : List Input} (h : s.inputs = .access acc :: rest) :
    step s = access acc { s with inputs := rest } := by
  simp [step, turn, h, handle, dropInput]

theorem step_core {s : State} (h : s.inputs = [] ∨ ∃ rest, s.inputs = .core :: rest) :
    step s = coreTurn { s with inputs := s.inputs.tail } := by
  rcases h with h | ⟨rest, h⟩
  · have : ({ s with inputs := s.inputs.tail } : State) = s := by cases s; simp_all
    rw [this]; simp [step, turn, h]
  · simp [step, turn, h, handle, dropInput]

theorem step_rst {s : State} {rest : List Input} (h : s.inputs = .rst :: rest) :
    step s = .next (hardwareReset { s with inputs := rest }) := by
  simp [step, turn, h, handle, dropInput]

end Sys2Proof.Machine
end

