-- ==== Sys2Proof/Tests/Slice0.lean ====
section
/-! SUPPORT. Tests. Expected values come from spec/: 30_encoding.md, 95_test_vectors.md (§ and row named at each test) and
the examples of the rules named. After them, one witness or more for every statement that has hypotheses. -/

namespace Sys2Proof.Tests

open Sys2Proof Sys2Proof.Machine

/-! ## Helpers -/

/-- Consecutive bytes as a memory. -/
def listing (a : Nat) : List Byte → Memory
  | [] => []
  | b :: bs => (a, b) :: listing (a + 1) bs

/-- BLK prefilled with aa (95_test_vectors.md §2.7). -/
def filled : Memory := listing 0x40 (List.replicate 64 0xaa)

/-- An idle block in a phase, with BLK prefilled and MLEN = 56. -/
def ready (p : Phase) : State :=
  { State.reset with
    phase := p
    h := match p with
      | .uninit => none
      | .cleared => some zeroWords
      | .absorbing | .paddedFinal | .paddedMore | .needNull | .done => some ivWords
    mem := filled
    complete := match p with
      | .paddedFinal | .done => true
      | .uninit | .absorbing | .paddedMore | .needNull | .cleared => false
    mlenLo := some 56
    mlenHi := some 0 }

/-- The block with a command accepted. -/
def running (i : Instr) (s : State) : State := { s with busy := true, pending := some i }

/-- The block with inputs waiting. -/
def fed (es : List Input) (s : State) : State := { s with inputs := es }

/-- A faulted block. -/
def faulted : State := raiseFault .sequence (cmdWrite 5) (ready .uninit)

/-- A block whose DIG holds a digest. -/
def withDigest : State := { ready .done with mem := filled ++ listing 0x80 (List.replicate 32 0x11), digValid := true }

/-- The padded "abc" block (95_test_vectors.md §2.2). -/
def abcBlock : List Byte := [0x61, 0x62, 0x63, 0x80] ++ List.replicate 52 0x00 ++ [0, 0, 0, 0, 0, 0, 0, 0x18]

/-- The next state, if there is one. -/
def nextState : Host.Outcome State Fault Refusal → Option State
  | .next s => some s
  | .fault _ => none
  | .refused _ => none

/-- STATUS, FINFO0 and FINFO1 after `k` steps over the inputs, from reset. -/
def record (es : List Input) : Option (Word × Word × Word) :=
  (nextState (Host.Core.run Sys2Proof.core es.length (fed es State.reset))).map fun s => (s.status, s.finfo0, s.finfo1)

def rd32 (off : BitVec 8) : Input := .access ⟨off, .w32, .read, 0⟩
def rd8 (off : BitVec 8) : Input := .access ⟨off, .w8, .read, 0⟩
def wr32 (off : BitVec 8) (v : Word) : Input := .access ⟨off, .w32, .write, v⟩
def wr8 (off : BitVec 8) (v : Word) : Input := .access ⟨off, .w8, .write, v⟩

/-! ## WellFormed refuses ill-formed lines (R89, R93) -/

theorem test_line_pad_64_refused : (AsmLine.mk .pad [64]).wellFormed = false ∧ (AsmLine.mk .pad [64]).assemble = none := by decide
theorem test_line_pad_without_operand_refused : (AsmLine.mk .pad []).wellFormed = false ∧ (AsmLine.mk .pad []).assemble = none := by decide
theorem test_line_init_with_operand_refused : (AsmLine.mk .init [0]).wellFormed = false ∧ (AsmLine.mk .init [0]).assemble = none := by decide
theorem test_line_pad_56 : (AsmLine.mk .pad [56]).assemble.map encode = some 0x00003803 := by decide
theorem test_loadblk_too_long_refused : loadBlkFits 60 [1, 2, 3, 4, 5] = false ∧ loadBlkFits 60 [1, 2, 3, 4] = true := by decide

/-! ## Decoding, words written out from R80 and R84 (95_test_vectors.md §2.11) -/

theorem test_decode_init : decode 0b00000000000000000000000000000001 = .ok .init := rfl
theorem test_decode_absorb : decode 0b00000000000000000000000000000010 = .ok .absorb := rfl
theorem test_decode_pad_3 : decode 0b00000000000000000000001100000011 = .ok (.pad 3) := rfl
theorem test_decode_pad_63 : decode 0b00000000000000000011111100000011 = .ok (.pad 63) := rfl
theorem test_decode_padnull : decode 0b00000000000000000000000000000100 = .ok .padnull := rfl
theorem test_decode_extract : decode 0b00000000000000000000000000000101 = .ok .extract := rfl
theorem test_decode_clear : decode 0b00000000000000000000000000000110 = .ok .clear := rfl
theorem test_decode_illegal_opcodes :
    decode 0x00000000 = .error .unknownOpcode ∧ decode 0x00000007 = .error .unknownOpcode ∧
    decode 0x000000ff = .error .unknownOpcode := ⟨rfl, rfl, rfl⟩
theorem test_decode_illegal_fields :
    decode 0x00004003 = .error .reservedBits ∧ decode 0x80000001 = .error .reservedBits ∧
    decode 0x00000104 = .error .lenNotZero ∧ decode 0x00000101 = .error .lenNotZero := ⟨rfl, rfl, rfl, rfl⟩
theorem test_table_word : decodeTableWord 32 0x00003703 = some (.pad 55) ∧ decodeTableWord 8 0x06 = some .clear := by decide

/-! ## Primitives (95_test_vectors.md §2.1) -/

theorem test_sigma : smallSigma0 0x12345678 = 0xe7fce6ee ∧ smallSigma1 0x12345678 = 0xa1f78649 ∧
    bigSigma0 0x12345678 = 0x66146474 ∧ bigSigma1 0x12345678 = 0x3561abda := by decide
theorem test_ch_maj : ch 0x510e527f 0x9b05688c 0x1f83d9ab = 0x1f85c98c ∧
    maj 0x6a09e667 0xbb67ae85 0x3c6ef372 = 0x3a6fe667 := by decide
theorem test_packing : be32 0x61 0x62 0x63 0x80 = 0x61626380 ∧
    bytesBE64 0x1c0 = [0, 0, 0, 0, 0, 0, 0x01, 0xc0] := by decide

/-! ## The commands -/

/-- §2.5, row 1: INIT from reset, STATUS 0x10. -/
theorem test_init : record (commandInputs 1 .init) = some (0x10, 0, 0) := by decide +kernel
/-- §2.5, row 3: INIT in DONE keeps COMPLETE, STATUS 0x12. -/
theorem test_init_keeps_complete :
    (nextState (exec .init (running .init (ready .done)))).map (·.status) = some 0x12 := by decide
/-- §2.4, row 4 (S2): the padded "abc" block. -/
theorem test_absorb_abc :
    (nextState (exec .absorb (running .absorb { ready .paddedFinal with mem := listing 0x40 abcBlock }))).map
      (fun t => (t.h, t.phase)) =
    some (some ⟨0xba7816bf, 0x8f01cfea, 0x414140de, 0x5dae2223, 0xb00361a3, 0x96177a9c, 0xb410ff61, 0xf20015ad⟩,
      .done) := by decide +kernel
/-- §2.4, row 3: every wrap-around. -/
theorem test_absorb_wraps : compress ⟨0xffffffff, 0xffffffff, 0xffffffff, 0xffffffff, 0xffffffff, 0xffffffff, 0xffffffff,
      0xffffffff⟩ (List.replicate 64 0xff) =
    ⟨0x0598127a, 0xaf11706e, 0x77401fff, 0xd730c549, 0x0b84c867, 0xa98c6ca3, 0xd7f3c0f9, 0x06a78b79⟩ := by
  decide +kernel
/-- §2.7, row PAD 55. -/
theorem test_pad_55 :
    (nextState (exec (.pad 55) (running (.pad 55) { ready .absorbing with mlenLo := some 55 }))).map
      (fun t => (t.block, t.complete, t.phase)) =
    some (some (List.replicate 55 0xaa ++ [0x80, 0, 0, 0, 0, 0, 0, 0x01, 0xb8]), true, .paddedFinal) := by decide +kernel
/-- §2.7, row PAD 56. -/
theorem test_pad_56 :
    (nextState (exec (.pad 56) (running (.pad 56) (ready .absorbing)))).map (fun t => (t.block, t.complete, t.phase)) =
    some (some (List.replicate 56 0xaa ++ [0x80, 0, 0, 0, 0, 0, 0, 0]), false, .paddedMore) := by decide +kernel
/-- §2.8, row MLEN 56. -/
theorem test_padnull :
    (nextState (exec .padnull (running .padnull (ready .needNull)))).map (fun t => (t.block, t.complete, t.phase)) =
    some (some (List.replicate 56 0x00 ++ [0, 0, 0, 0, 0, 0, 0x01, 0xc0]), true, .paddedFinal) := by decide +kernel
/-- §2.9: the bytes of H = IV, and DIG_VALID. -/
theorem test_extract :
    (nextState (exec .extract (running .extract (ready .done)))).map (fun t => (t.digestBytes, t.digValid)) =
    some (some ([0x6a, 0x09, 0xe6, 0x67, 0xbb, 0x67, 0xae, 0x85, 0x3c, 0x6e, 0xf3, 0x72, 0xa5, 0x4f, 0xf5, 0x3a] ++
      [0x51, 0x0e, 0x52, 0x7f, 0x9b, 0x05, 0x68, 0x8c, 0x1f, 0x83, 0xd9, 0xab, 0x5b, 0xe0, 0xcd, 0x19]), true) := by
  decide +kernel
/-- §2.10: CLEAR leaves H = 0 in CLEARED, and DIG_VALID and COMPLETE as they were. -/
theorem test_clear :
    (nextState (exec .clear (running .clear withDigest))).map (fun t => (t.h, t.status)) =
    some (some zeroWords, 0x6a) := by decide

/-! ## Host accesses and faults (95_test_vectors.md §2.12) -/

theorem test_v1_illegal_command : record [wr32 0x00 0x00000000] = some (0x104, 0x00000000, 0x80000300) := by decide +kernel
theorem test_v4_sequence : record [wr32 0x00 0x00000002] = some (0x204, 0x00000002, 0x80000300) := by decide +kernel
theorem test_v5_length :
    record (commandInputs 0 .init ++ lineInputs (setLen 0x2000000000000000) ++ [wr32 0x00 0x00000003]) =
    some (0x314, 0x00000003, 0x80000300) := by decide +kernel
theorem test_v6_concurrent : record [wr32 0x00 0x00000001, wr8 0x40 0x61] = some (0x404, 0x00000061, 0x80000140) := by
  decide +kernel
theorem test_v8_buffer_hazard :
    record (commandInputs 0 .init ++ lineInputs (setLen 0) ++ commandInputs 0 (.pad 0) ++ [wr8 0x40 0x00]) =
    some (0x526, 0x00000000, 0x80000140) := by decide +kernel
theorem test_v13_undefined_read : record [rd8 0x45] = some (0x604, 0x00000000, 0x80000045) := by decide +kernel
theorem test_v23_bad_access_before_concurrent :
    record [wr32 0x00 0x00000001, rd32 0x01] = some (0x704, 0x00000000, 0x80000201) := by decide +kernel
theorem test_v24_status_while_busy :
    (nextState (step (fed [rd32 0x04] (running .init State.reset)))).map (·.reply) = some (.word 0x00000001) := by decide
theorem test_v27_mlen_reads_back :
    (nextState (step (fed [rd32 0x10] { State.reset with mlenLo := some 0xdeadbeef }))).map (·.reply) =
    some (.word 0xdeadbeef) := by decide
theorem test_v29_faulted_ignores :
    record [wr32 0x00 0x00000005, wr32 0x00 0x00000001, .core] = some (0x204, 0x00000005, 0x80000300) := by decide +kernel
theorem test_v31_reset_leaves_the_fault : record [wr32 0x00 0x00000005, .rst] = some (0, 0, 0) := by decide +kernel

/-! ## What step runs -/

/-- The placed word is the next thing that runs: INIT is accepted after reset, and the core's turn performs it. -/
theorem test_with_fetch_word :
    (nextState (step (State.reset.withFetchWord 32 0x00000001))).map (fun t => (t.pending, t.status)) =
    some (some .init, 0x01) := by decide
theorem test_core_turn : (nextState (step (running .init State.reset))).map (·.status) = some 0x10 := by decide

/-! ## The platform -/

theorem test_platform :
    (Platform.start [0x1000, 0x2000]).wf = true ∧ (Platform.start [0x1000, 0x1000]).wf = false ∧
    ((Platform.start [0x1000, 0x2000]).request 0x2004 .w32 .read 0).map (·.block.inputs.length) = [0, 1] := by decide

/-! ## Witnesses: every statement's hypotheses are met -/

theorem ready_inv (p : Phase) : (ready p).Inv where
  memWf := by cases p <;> decide
  busyIffPending := by cases p <;> decide
  hashUndefinedIff := by cases p <;> decide
  digestDefined := by
    intro a h1 h2
    have h : ∀ a, a < 0xA0 → 0x80 ≤ a → (filled.read a).isSome = false := by decide
    exact h a h2 h1
  noRecord := by cases p <;> decide
  record := by cases p <;> decide
  faultedIdle := by cases p <;> decide
  pendingAccepted := nofun
  completeSet := by cases p <;> decide
  completeClear := by cases p <;> decide
  clearedZero := by cases p <;> decide
  paramRange := by cases p <;> decide

/-- A command that passes its checks, accepted. -/
theorem running_inv {s : State} {i : Instr} (h : s.Inv) (hf : s.fault = false) (hi : issueFault i s = none) :
    (running i s).Inv where
  memWf := h.memWf
  busyIffPending := rfl
  hashUndefinedIff := h.hashUndefinedIff
  digestDefined := h.digestDefined
  noRecord := h.noRecord
  record := h.record
  faultedIdle := fun hf' => absurd hf' (by simp [running, hf])
  pendingAccepted := by
    intro j hj
    cases hj
    exact hi
  completeSet := h.completeSet
  completeClear := h.completeClear
  clearedZero := h.clearedZero
  paramRange := h.paramRange

/-- Inputs are no part of the invariant. -/
theorem fed_inv {s : State} {es : List Input} (h : s.Inv) : (fed es s).Inv where
  memWf := h.memWf
  busyIffPending := h.busyIffPending
  hashUndefinedIff := h.hashUndefinedIff
  digestDefined := h.digestDefined
  noRecord := h.noRecord
  record := h.record
  faultedIdle := h.faultedIdle
  pendingAccepted := h.pendingAccepted
  completeSet := h.completeSet
  completeClear := h.completeClear
  clearedZero := h.clearedZero
  paramRange := h.paramRange

theorem withDigest_inv : withDigest.Inv where
  memWf := by decide
  busyIffPending := by decide
  hashUndefinedIff := by decide
  digestDefined := by
    intro a h1 h2
    have h : ∀ a, a < 0xA0 → 0x80 ≤ a → (withDigest.mem.read a).isSome = true := by decide +kernel
    exact h a h2 h1
  noRecord := by decide
  record := by decide
  faultedIdle := by decide
  pendingAccepted := nofun
  completeSet := by decide
  completeClear := by decide
  clearedZero := by decide
  paramRange := by decide

theorem witness_DecoderFollowsTheOpcodeMap :
    (0x00003f03 : Word).toNat = 0x00000003 + (63 : Fin 64).val * 0x100 ∧ ∃ w : Word, ∃ r ∈ opcodeMap, ∃ r' ∈ opcodeMap, r.selects w = true ∧ r'.selects w = true :=
  ⟨by decide, 0x00003f03, ⟨.pad, 0x00000003, 0xFFFFC0FF⟩, by decide, ⟨.pad, 0x00000003, 0xFFFFC0FF⟩, by decide, by decide, by decide⟩

theorem witness_IllegalWordsRaiseIllegalCommand :
    ∀ w ∈ [0x00000000, 0x00000007, 0x000000ff, 0x00004003, 0x80000001, (0x00000104 : Word)],
      (fed [.access (cmdWrite w)] State.reset).inputs = [.access (cmdWrite w)] ∧ State.reset.fault = false ∧
      State.reset.busy = false ∧ ∃ e, decode w = .error e := by
  intro w hw
  refine ⟨rfl, rfl, rfl, ?_⟩
  simp only [List.mem_cons, List.not_mem_nil, or_false] at hw
  rcases hw with rfl | rfl | rfl | rfl | rfl | rfl <;> exact ⟨_, rfl⟩

theorem witness_StepRunsTheWrittenCommand :
    ((fed [.access (cmdWrite 0x00003f03)] (ready .absorbing)).fault = false ∧
      (fed [.access (cmdWrite 0x00003f03)] (ready .absorbing)).busy = false ∧ decode 0x00003f03 = .ok (.pad 63)) ∧
    decodeTableWord 32 0x00003f03 = some (.pad 63) := ⟨⟨rfl, rfl, rfl⟩, rfl⟩

theorem witness_CoreTurnRunsThePendingCommand :
    ((running .init State.reset).inputs = [] ∧ (running .init State.reset).busy = true ∧
      (running .init State.reset).fault = false ∧ (running .init State.reset).pending = some .init) ∧
    ((fed [.core] State.reset).inputs = [.core] ∧ (fed [.core] State.reset).busy = false) ∧
    (faulted.inputs = [] ∧ faulted.fault = true) := ⟨by decide, by decide, rfl, rfl⟩

theorem witness_ResetInputRestoresEveryValue : (fed [.rst] (running .init State.reset)).inputs = [.rst] := rfl

theorem witness_InitAndClear : (ready .absorbing).busy = false ∧ (running .init (ready .absorbing)).busy = true := by decide

theorem witness_AbsorbCompressesTheBlock :
    ∀ pq ∈ [(Phase.absorbing, Phase.absorbing), (.paddedFinal, .done), (.paddedMore, .needNull)],
      (running .absorb (ready pq.1)).busy = true ∧ (running .absorb (ready pq.1)).h = some ivWords ∧
      (List.replicate 64 (0xaa : Byte)).length = 64 ∧
      (∀ k, k < 64 → (running .absorb (ready pq.1)).mem.read (0x40 + k) = (List.replicate 64 (0xaa : Byte))[k]?) ∧
      (running .absorb (ready pq.1)).phase = pq.1 := by decide +kernel

theorem witness_CompressFollowsTheRounds : abcBlock.length = 64 := by decide

theorem witness_RotateAndShiftMoveBits : (0 < 1 ∧ 1 < 32 ∧ 31 < 32) ∧ (0 < 31 ∧ 31 < 32 ∧ 0 < 32) := by decide

theorem witness_WordFunctionsBitByBit : 0 < 32 ∧ 31 < 32 := by decide

theorem witness_AssemblerAcceptsExactlyTheWellFormedLines :
    (AsmLine.mk .pad [63]).assemble = some (.pad 63) ∧ (AsmLine.mk .clear []).assemble = some .clear := by decide

theorem witness_Pad :
    (∀ i ∈ [Instr.pad 0, .pad 55, .pad 56, .pad 63, .padnull], (running i (ready .absorbing)).busy = true ∧
      (running i (ready .absorbing)).mlenLo = some 56 ∧ (running i (ready .absorbing)).mlenHi = some 0) ∧
    (0 : Fin 64).val ≤ 55 ∧ (55 : Fin 64).val ≤ 55 ∧ 56 ≤ (56 : Fin 64).val ∧ 56 ≤ (63 : Fin 64).val := by decide

/-- Two blocks that agree on BLK[0] and on nothing after it. -/
def other (i : Instr) : State :=
  { running i (ready .absorbing) with mem := listing 0x40 (0xaa :: List.replicate 63 0xbb) }

theorem witness_PadOutputIgnoresOldBytes :
    (running (.pad 1) (ready .absorbing)).busy = true ∧ (other (.pad 1)).busy = true ∧
    (running (.pad 1) (ready .absorbing)).mlenLo = (other (.pad 1)).mlenLo ∧
    (running (.pad 1) (ready .absorbing)).mlenHi = (other (.pad 1)).mlenHi ∧
    (∀ i, i < (1 : Fin 64).val →
      (running (.pad 1) (ready .absorbing)).mem.read (0x40 + i) = (other (.pad 1)).mem.read (0x40 + i)) ∧
    (∃ t, exec (.pad 1) (running (.pad 1) (ready .absorbing)) = .next t) ∧
    (∃ t, exec (.pad 1) (other (.pad 1)) = .next t) ∧
    (∃ t, exec (.pad 0) (running (.pad 1) (ready .absorbing)) = .next t) ∧
    (∃ t, exec .padnull (running (.pad 1) (ready .absorbing)) = .next t) ∧
    (∃ t, exec .padnull (other (.pad 1)) = .next t) :=
  ⟨rfl, rfl, rfl, rfl, by decide, ⟨_, rfl⟩, ⟨_, rfl⟩, ⟨_, rfl⟩, ⟨_, rfl⟩, ⟨_, rfl⟩⟩

theorem witness_BitCountIsEightTimesTheLength :
    Config.maxMsgBytesLimit ≤ Config.maxMsgBytesLimit ∧
    lengthExceeds 0x1fffffffffffffff Config.maxMsgBytesLimit = false := by decide

theorem witness_ExtractSerializesTheStateWords :
    (running .extract (ready .done)).busy = true ∧ (running .extract (ready .done)).h = some ivWords := by decide

theorem witness_CoreStepWithoutItsOperandsStops :
    ((running .absorb State.reset).busy = true ∧ (running .absorb State.reset).h = none) ∧
    ((running .absorb State.reset).mem.read (0x40 + 63) = none) ∧
    ((running .padnull State.reset).mlenLo = none) ∧
    ((running .absorb (ready .done)).h ≠ none ∧ (∀ k, k < 64 → (running .absorb (ready .done)).mem.read (0x40 + k) ≠ none) ∧
      (running .absorb (ready .done)).phase ∈ [.uninit, .needNull, .done, Phase.cleared]) ∧
    ({ State.reset with busy := true }.fault = false ∧ { State.reset with busy := true }.pending = none ∧
      { State.reset with busy := true }.inputs = []) := by decide +kernel

theorem witness_CommandWriteChecksRunInOrder :
    (∃ e, decode 0 = .error e) ∧
    ((ready .done).phase.next .absorb = none) ∧
    ((ready .absorbing).phase.next .absorb ≠ none ∧ ({ ready .absorbing with mem := [] }).mem.read (0x40 + 63) = none) ∧
    ((ready .absorbing).phase.next (.pad 0) ≠ none ∧ ({ ready .absorbing with mlenLo := none }).mlenLo = none) ∧
    ({ ready .absorbing with mlenHi := some 0x20000000, mlenLo := some 0 }.maxMsgBytes
      ≤ (0x20000000 : Word).toNat * 2 ^ 32 + (0 : Word).toNat) ∧
    ((∀ k, k < 64 → (ready .absorbing).mem.read (0x40 + k) ≠ none) ∧
      (0x1fffffff : Word).toNat * 2 ^ 32 + (0xffffffff : Word).toNat < (ready .absorbing).maxMsgBytes) :=
  ⟨⟨_, rfl⟩, by decide +kernel⟩

theorem witness_PhaseFollowsTheTransitionTable :
    ((55 : Fin 64).val ≤ 55 ∧ 56 ≤ (56 : Fin 64).val) ∧
    (running .absorb (ready .paddedMore)).busy = true ∧
    (running .absorb (ready .paddedMore)).phase.next .absorb = some .needNull ∧
    (nextState (exec .absorb (running .absorb (ready .paddedMore)))).isSome = true := by decide +kernel

/-- Illegal accesses next to every boundary of the address map. -/
theorem witness_IllegalAccessRaisesBadAccess :
    ∀ acc ∈ [HostAccess.mk 0x00 .w32 .read 0, ⟨0x04, .w32, .write, 1⟩, ⟨0x0C, .w8, .read, 0⟩, ⟨0x12, .w32, .read, 0⟩] ++
        [⟨0x18, .w32, .read, 0⟩, ⟨0x3F, .w8, .read, 0⟩, ⟨0x40, .w32, .write, 0⟩, ⟨0x7F, .w32, .read, 0⟩] ++
        [⟨0x80, .w8, .write, 0⟩, ⟨0xA0, .w8, .read, 0⟩, ⟨0xFF, .w8, .read, 0⟩],
      ¬ ((acc.off = 0x00 ∧ acc.width = .w32 ∧ acc.dir = .write) ∨
       (acc.off.toNat ∈ [0x04, 0x08, 0x0C] ∧ acc.width = .w32 ∧ acc.dir = .read) ∨
       (acc.off.toNat ∈ [0x10, 0x14] ∧ acc.width = .w32) ∨
       (0x40 ≤ acc.off.toNat ∧ acc.off.toNat ≤ 0x7F ∧ acc.width = .w8) ∨
       (0x80 ≤ acc.off.toNat ∧ acc.off.toNat ≤ 0x9F ∧ acc.width = .w8 ∧ acc.dir = .read)) := by decide +kernel

theorem witness_BusyBlockRejectsOtherAccesses :
    ∀ acc ∈ [cmdWrite 1, ⟨0x10, .w32, .read, 0⟩, ⟨0x40, .w8, .write, 0x61⟩, ⟨0x9F, .w8, .read, 0⟩],
      (fed [.access acc] (running .init State.reset)).fault = false ∧
      (fed [.access acc] (running .init State.reset)).busy = true ∧ acc.legal = true ∧
      ¬ (acc.width = .w32 ∧ acc.dir = .read ∧ acc.off.toNat ∈ [0x04, 0x08, 0x0C]) := by decide

theorem witness_StatusReadsReturnTheRegisters :
    ∀ off ∈ [0x04, 0x08, (0x0C : BitVec 8)], (fed [rd32 off] (running .init State.reset)).inputs = [rd32 off] := by decide

theorem witness_BlockByteAccesses :
    ((ready .absorbing).fault = false ∧ (ready .absorbing).busy = false) ∧
    ((running .init State.reset).fault = false ∧ (running .init State.reset).busy = true) ∧
    ((ready .absorbing).mem.read (0x40 + 0) = some 0xaa ∧ (ready .absorbing).mem.read (0x40 + 63) = some 0xaa) ∧
    (State.reset.mem.read (0x40 + 0) = none ∧ State.reset.mem.read (0x40 + 63) = none) ∧
    (fed [rd8 0x7F] (ready .absorbing)).inputs = [.access ⟨BitVec.ofNat 8 (0x40 + 63), .w8, .read, 0⟩] ∧
    ((ready .paddedFinal).phase = .paddedFinal ∧ (ready .needNull).phase ≠ .paddedFinal ∧
      (ready .needNull).phase ≠ .paddedMore) ∧
    (fed [wr8 0x7F 0x61] (ready .needNull)).inputs = [.access ⟨BitVec.ofNat 8 (0x40 + 63), .w8, .write, 0x61⟩] := by
  decide +kernel

theorem witness_DigestByteAccesses :
    (withDigest.Inv ∧ withDigest.fault = false ∧ withDigest.busy = false ∧ withDigest.digValid = true) ∧
    ((ready .done).Inv ∧ (ready .done).fault = false ∧ (ready .done).busy = false ∧ (ready .done).digValid = false) ∧
    ((running .init (ready .done)).Inv ∧ (running .init (ready .done)).fault = false ∧
      (running .init (ready .done)).busy = true) ∧
    (fed [rd8 0x9F] withDigest).inputs = [.access ⟨BitVec.ofNat 8 (0x80 + 31), .w8, .read, 0⟩] ∧
    (fed [wr8 0x80 0x61] withDigest).inputs = [.access ⟨BitVec.ofNat 8 (0x80 + 0), .w8, .write, 0x61⟩] :=
  ⟨⟨withDigest_inv, rfl, rfl, rfl⟩, ⟨ready_inv .done, rfl, rfl, rfl⟩,
    ⟨running_inv (ready_inv _) rfl rfl, rfl, rfl⟩, rfl, rfl⟩

theorem witness_LengthRegisterAccesses :
    (State.reset.fault = false ∧ State.reset.busy = false ∧ State.reset.mlenLo = none ∧ State.reset.mlenHi = none) ∧
    ((ready .done).mlenLo = some 56 ∧ (ready .done).mlenHi = some 0) ∧
    ((fed [rd32 0x14] (running .init State.reset)).fault = false ∧
      (fed [rd32 0x14] (running .init State.reset)).busy = true ∧
      (fed [rd32 0x14] (running .init State.reset)).inputs = [.access ⟨0x14, .w32, .read, 0⟩]) ∧
    (fed [rd32 0x10] State.reset).inputs = [.access ⟨0x10, .w32, .read, 0⟩] ∧
    (fed [wr32 0x14 0xffffffff] State.reset).inputs = [.access ⟨0x14, .w32, .write, 0xffffffff⟩] := by decide

theorem witness_SecondHostIsRefused :
    (fed [.secondHost (cmdWrite 1)] State.reset).inputs = [.secondHost (cmdWrite 1)] := rfl

theorem witness_EveryFaultRecordsItsAccess :
    State.reset.fault = false ∧ ∃ t, step (fed [rd8 0x45] State.reset) = .next t ∧ t.fault = true :=
  ⟨rfl, _, rfl, rfl⟩

theorem witness_FaultKeepsWhatIsDefined :
    (ready .paddedFinal).fault = false ∧ ∃ t, step (fed [wr8 0x40 0x61] (ready .paddedFinal)) = .next t ∧ t.fault = true :=
  ⟨rfl, _, rfl, rfl⟩

theorem witness_FaultedStateIsFinal :
    faulted.fault = true ∧ (∃ t, step (fed [wr32 0x00 1] faulted) = .next t) ∧
    (∃ t, step (fed [rd32 0x04] faulted) = .next t) ∧ (∃ t, step (fed [rd32 0x08] faulted) = .next t) ∧
    (∃ t, step (fed [rd32 0x0C] faulted) = .next t) ∧
    (∃ t, step (fed [.rst] faulted) = .next t ∧ t.fault = false) :=
  ⟨rfl, ⟨_, rfl⟩, ⟨_, rfl⟩, ⟨_, rfl⟩, ⟨_, rfl⟩, _, rfl, rfl⟩

theorem idle_oneHost {s : State} (h : s.inputs = []) : s.oneHost := fun _ _ h' => by
  rw [h] at h'
  cases h'

theorem witness_FaultedStateAcceptsEveryAccess : faulted.fault = true ∧ faulted.oneHost :=
  ⟨rfl, idle_oneHost rfl⟩

theorem witness_CoreStepNeverFaults :
    (running .absorb (ready .absorbing)).Inv ∧ (running .absorb (ready .absorbing)).pending = some .absorb :=
  ⟨running_inv (ready_inv _) rfl (by decide +kernel), rfl⟩

theorem witness_EveryStepKeepsTheInvariant :
    (running .init (ready .uninit)).Inv ∧ (running .init (ready .uninit)).oneHost ∧
    ∃ t, step (running .init (ready .uninit)) = .next t :=
  ⟨running_inv (ready_inv _) rfl rfl, idle_oneHost rfl, _, rfl⟩

theorem witness_OnlyThreeCommandsWriteTheHash :
    ∃ t, step (running .clear (ready .done)) = .next t ∧ t.h ≠ (running .clear (ready .done)).h :=
  ⟨_, rfl, by decide⟩

theorem witness_BlockDefinednessChangesAsStated :
    (∃ t, step (fed [.rst] (ready .absorbing)) = .next t ∧ (fed [.rst] (ready .absorbing)).blkDef 63 = true ∧
      t.blkDef 63 = false) ∧
    (∃ t, step (fed [wr8 0x7F 0x61] State.reset) = .next t ∧ (fed [wr8 0x7F 0x61] State.reset).blkDef 63 = false ∧
      t.blkDef 63 = true) :=
  ⟨⟨_, rfl, by decide +kernel, by decide +kernel⟩, ⟨_, rfl, by decide +kernel, by decide +kernel⟩⟩

theorem witness_DigValidChangesAsStated :
    (∃ t, step (running .extract (ready .done)) = .next t ∧ t.digValid ≠ (running .extract (ready .done)).digValid) ∧
    (∃ t, step (fed [.rst] withDigest) = .next t ∧ t.digValid ≠ (fed [.rst] withDigest).digValid) ∧
    ((running .extract (ready .done)).inputs = [] ∧ (running .extract (ready .done)).busy = true ∧
      (running .extract (ready .done)).fault = false ∧ (running .extract (ready .done)).pending = some .extract) :=
  ⟨⟨_, rfl, by decide⟩, ⟨_, rfl, by decide⟩, rfl, rfl, rfl, rfl⟩

theorem witness_CompleteHoldsThePadResult :
    (∃ t, step (running .padnull (ready .needNull)) = .next t ∧
      t.complete ≠ (running .padnull (ready .needNull)).complete) ∧
    (∃ t, step (fed [.rst] (ready .done)) = .next t ∧ t.complete ≠ (fed [.rst] (ready .done)).complete) ∧
    (∀ len : Fin 64, (running (.pad len) (ready .absorbing)).pending = some (.pad len) ∧
      (running (.pad len) (ready .absorbing)).busy = true) :=
  ⟨⟨_, rfl, by decide⟩, ⟨_, rfl, by decide⟩, fun _ => ⟨rfl, rfl⟩⟩

theorem witness_PendingCommandKeepsItsOperands :
    (fed [rd32 0x04] (running .init State.reset)).busy = true ∧
    (fed [rd32 0x04] (running .init State.reset)).fault = false ∧
    (∃ t, step (fed [rd32 0x04] (running .init State.reset)) = .next t) ∧
    (∃ t, step (fed [wr8 0x40 0x61] (running .init State.reset)) = .next t) :=
  ⟨rfl, rfl, ⟨_, rfl⟩, ⟨_, rfl⟩⟩

theorem witness_PolledCommandIsPerformed :
    (running (.pad 63) (ready .absorbing)).Inv ∧ (running (.pad 63) (ready .absorbing)).pending = some (.pad 63) :=
  ⟨running_inv (ready_inv _) rfl (by decide +kernel), rfl⟩

theorem witness_WaitEndsAfterTheCoreStep :
    (ready .absorbing).Inv ∧ (ready .absorbing).idle ∧ issueFault (.pad 63) (ready .absorbing) = none :=
  ⟨ready_inv _, ⟨rfl, rfl⟩, by decide +kernel⟩

theorem witness_InstancesAreIsolated :
    ∃ q, Platform.run [1, 0, 1] (Platform.start [0x1000, 0x2000]) = .next q ∧
      (Platform.start [0x1000, 0x2000])[1]? = some ⟨0x2000, State.reset⟩ := ⟨_, rfl, rfl⟩

theorem witness_ClearThenExtractGivesZeros : (ready .done).Inv ∧ (ready .done).idle := ⟨ready_inv _, rfl, rfl⟩

theorem witness_Compute :
    State.reset.idle ∧ (ready .done).Inv ∧ (ready .done).idle ∧ ([] : List Byte).length < (ready .done).maxMsgBytes ∧
    ([0x61, 0x62, 0x63] : List Byte).length < (ready .done).maxMsgBytes :=
  ⟨⟨rfl, rfl⟩, ready_inv _, ⟨rfl, rfl⟩, by decide, by decide⟩

end Sys2Proof.Tests
end

/-! ## Rotation and shift (40_primitives.md R102, R103) -/

namespace Sys2Proof.Machine

/-- R102 bit by bit: below bit 32 - n the right shift gives the bit, from there on the left shift does. -/
theorem getLsbD_rotr {x : Word} {n i : Nat} (h0 : 0 < n) (hn : n < 32) (hi : i < 32) :
    (rotr x n).getLsbD i = x.getLsbD ((i + n) % 32) := by
  rw [rotr, BitVec.getLsbD_or, BitVec.getLsbD_ushiftRight, BitVec.getLsbD_shiftLeft]
  by_cases hlow : i + n < 32
  · have hidx : (i + n) % 32 = n + i := by omega
    simp [hidx, show i < 32 - n by omega]
  · have hidx : (i + n) % 32 = i - (32 - n) := by omega
    have htop : x.getLsbD (n + i) = false := BitVec.getLsbD_of_ge x _ (by omega)
    simp [hidx, htop, hi, show ¬ i < 32 - n by omega]

/-- R103 as a floor division; it holds of every shift count. -/
theorem toNat_shr (x : Word) (n : Nat) : (shr x n).toNat = x.toNat / 2 ^ n := by
  rw [shr, BitVec.toNat_ushiftRight, Nat.shiftRight_eq_div_pow]

/-- Settles O15, by the two lemmas above. -/
theorem rotateAndShiftMoveBits : Obligations.RotateAndShiftMoveBits := fun x n =>
  ⟨fun h0 hn _ hi => getLsbD_rotr h0 hn hi, fun _ => toNat_shr x n⟩

end Sys2Proof.Machine

/-! ## Core steps without an operand, a next phase or a pending command (log entry 7) -/

namespace Sys2Proof.Machine

/-! While BUSY = 1 a command that can stop has its perform half as its meaning (41_compression.md R130). -/

theorem exec_absorb_of_busy {s : State} (hb : s.busy = true) : exec .absorb s = performAbsorb s := by
  simp [exec, execAbsorb, hb]

theorem exec_extract_of_busy {s : State} (hb : s.busy = true) : exec .extract s = performExtract s := by
  simp [exec, execExtract, hb]

theorem exec_pad_of_busy {s : State} (len : Fin 64) (hb : s.busy = true) :
    exec (.pad len) s = performPad len s := by
  simp [exec, execPad, hb]

theorem exec_padnull_of_busy {s : State} (hb : s.busy = true) : exec .padnull s = performPadnull s := by
  simp [exec, execPadnull, hb]

/-- The block operand is missing iff a byte of BLK is undefined. -/
theorem block_eq_none {s : State} : s.block = none ↔ ∃ k, k < 64 ∧ s.mem.read (0x40 + k) = none := by
  have h : s.block.isSome = true ↔ ∀ k, k < 64 → (s.mem.read (0x40 + k)).isSome = true := block_isSome
  rw [← Option.not_isSome_iff_eq_none, h]
  simp

/-- The phases without a row in R132's table. -/
theorem Phase.afterAbsorb_eq_none {p : Phase} :
    p.afterAbsorb = none ↔ p ∈ [.uninit, .needNull, .done, Phase.cleared] := by
  cases p <;> decide

theorem performAbsorb_of_operand_missing {s : State} (h : s.h = none ∨ s.block = none) :
    performAbsorb s = .fault .undefinedOperand := by
  unfold performAbsorb
  split
  · next hh hbl => simp [hh, hbl] at h
  · rfl

theorem performAbsorb_of_no_next_phase {s : State} (hh : s.h ≠ none) (hbl : s.block ≠ none)
    (hp : s.phase.afterAbsorb = none) : performAbsorb s = .fault .noNextPhase := by
  obtain ⟨words, hwords⟩ := Option.ne_none_iff_exists'.mp hh
  obtain ⟨bytes, hbytes⟩ := Option.ne_none_iff_exists'.mp hbl
  simp [performAbsorb, hwords, hbytes, hp]

theorem performExtract_of_hash_undefined {s : State} (h : s.h = none) :
    performExtract s = .fault .undefinedOperand := by
  simp [performExtract, h]

theorem performPad_of_mlen_undefined {s : State} (len : Fin 64) (h : s.mlen = none) :
    performPad len s = .fault .undefinedOperand := by
  simp [performPad, h]

theorem performPadnull_of_mlen_undefined {s : State} (h : s.mlen = none) :
    performPadnull s = .fault .undefinedOperand := by
  simp [performPadnull, h]

theorem coreTurn_of_nothing_pending {s : State} (hb : s.busy = true) (hf : s.fault = false)
    (hp : s.pending = none) : coreTurn s = .fault .noPendingCommand := by
  simp [coreTurn, hb, hf, hp]

/-- Settles O24, one perform half at a time; with no input pending the step is the core's turn. -/
theorem coreStepWithoutItsOperandsStops : Obligations.CoreStepWithoutItsOperandsStops := by
  intro s hb
  rw [exec_absorb_of_busy hb, exec_extract_of_busy hb, exec_padnull_of_busy hb]
  refine ⟨fun hh => ?_, fun hbl => ?_, fun hm => ?_, fun hh hbl hp => ?_, fun hf hp hin => ?_⟩
  · exact ⟨performAbsorb_of_operand_missing (.inl hh), performExtract_of_hash_undefined hh⟩
  · exact performAbsorb_of_operand_missing (.inr (block_eq_none.mpr hbl))
  · have hmlen : s.mlen = none := mlen_eq_none.mpr hm.symm
    exact ⟨performPadnull_of_mlen_undefined hmlen, fun len => by
      rw [exec_pad_of_busy len hb, performPad_of_mlen_undefined len hmlen]⟩
  · have hblock : s.block ≠ none := fun h =>
      have ⟨k, hk, hread⟩ := block_eq_none.mp h
      hbl k hk hread
    exact performAbsorb_of_no_next_phase hh hblock (Phase.afterAbsorb_eq_none.mpr hp)
  · rw [step_core (.inl hin)]
    exact coreTurn_of_nothing_pending hb hf hp

end Sys2Proof.Machine

/-! ## What a step does, by its effect on the block -/

namespace Sys2Proof.Machine

theorem dropInput_sameBlock (s : State) : SameBlock s (dropInput s) := by constructor <;> rfl

theorem answer_sameBlock (r : Reply) (s : State) : SameBlock s (answer r s) := by constructor <;> rfl

/-- R206: in the faulted state an access changes the model's own fields alone. -/
theorem faultedAccess_sameBlock (acc : HostAccess) (s : State) : SameBlock s (faultedAccess acc s) := by
  unfold faultedAccess
  repeat' split
  all_goals constructor <;> rfl

/-- What a step can do to the block. A fault is raised in the block as the step found it; `same` is a core turn with no
core step enabled, or an access in the faulted state (R206). -/
inductive StepEffect (s : State) : State → Prop where
  | performed {i t} (hturn : s.inputs = [] ∨ ∃ rest, s.inputs = .core :: rest) (hb : s.busy = true)
      (hf : s.fault = false) (hp : s.pending = some i) (h : Performed (dropInput s) i t) : StepEffect s t
  | reset {rest} (hin : s.inputs = .rst :: rest) : StepEffect s (hardwareReset (dropInput s))
  | faulted {code acc s'} (hf : s.fault = false) (hs : SameBlock s s') : StepEffect s (raiseFault code acc s')
  | accessed {acc rest t} (hin : s.inputs = .access acc :: rest) (hf : s.fault = false) (hl : acc.legal = true)
      (h : AccessDone acc (dropInput s) t) : StepEffect s t
  | same {t} (hs : SameBlock s t) : StepEffect s t

theorem coreTurn_effect {s t : State} (hturn : s.inputs = [] ∨ ∃ rest, s.inputs = .core :: rest)
    (h : coreTurn (dropInput s) = .next t) : StepEffect s t := by
  obtain ⟨-, rfl⟩ | ⟨hb, hf, i, hp, hperf⟩ := coreTurn_cases h
  · exact .same (dropInput_sameBlock s)
  · exact .performed hturn hb hf hp hperf

theorem access_effect {s t : State} {acc : HostAccess} {rest : List Input} (hin : s.inputs = .access acc :: rest)
    (h : access acc (dropInput s) = .next t) : StepEffect s t := by
  have hdrop := dropInput_sameBlock s
  obtain ⟨-, rfl⟩ | ⟨hf, code, -, s', acc', rfl, hs'⟩ | ⟨hf, hl, hdone⟩ := access_cases h
  · exact .same (hdrop.trans (faultedAccess_sameBlock acc _))
  · obtain ⟨-, rfl⟩ | ⟨-, -, -, -, -, rfl⟩ := hs'
    · exact .faulted hf hdrop
    · exact .faulted hf (hdrop.trans (answer_sameBlock _ _))
  · exact .accessed hin hf hl hdone

/-- Everything a step can do to the block. -/
theorem step_effect {s t : State} (h : step s = .next t) : StepEffect s t := by
  obtain ⟨hturn, hcore⟩ | ⟨acc, rest, hin, hacc⟩ | ⟨rest, hin, rfl⟩ := step_cases h
  · exact coreTurn_effect hturn hcore
  · exact access_effect hin hacc
  · exact .reset hin

/-- R234: the core's turn performs the pending command of a busy, unfaulted block. -/
theorem step_performs {s t : State} {i : Instr} (h : step s = .next t)
    (hturn : s.inputs = [] ∨ ∃ rest, s.inputs = .core :: rest) (hb : s.busy = true) (hf : s.fault = false)
    (hp : s.pending = some i) : Performed (dropInput s) i t := by
  have hcore : coreTurn (dropInput s) = .next t := (step_core hturn).symm.trans h
  obtain ⟨hidle, -⟩ | ⟨-, -, j, hj, hperf⟩ := coreTurn_cases hcore
  · simp [hb, hf] at hidle
  · obtain rfl : i = j := Option.some.inj (hp.symm.trans hj)
    exact hperf

theorem step_resets {s t : State} (h : step s = .next t) (hrst : ∃ rest, s.inputs = .rst :: rest) :
    t = hardwareReset (dropInput s) := by
  obtain ⟨rest, hin⟩ := hrst
  rw [step_rst hin] at h
  cases h
  simp [dropInput, hin]

end Sys2Proof.Machine

/-! ## What a performed command and a completed access change -/

namespace Sys2Proof.Machine

theorem Memory.isSome_read_write (m : Memory) (a : Nat) (v : Byte) (x : Nat) :
    ((Memory.write m a v).read x).isSome = (decide (x = a) || (Memory.read m x).isSome) := by
  rw [Memory.read_write]
  by_cases h : x = a <;> simp [h]

section Performed
variable {s t : State} {i : Instr}

theorem Performed.hash_eq_or (h : Performed s i t) : t.h = s.h ∨ i = .init ∨ i = .absorb ∨ i = .clear := by
  cases h <;> simp

theorem Performed.digValid_eq (h : Performed s i t) : t.digValid = (s.digValid || decide (i = .extract)) := by
  cases h <;> simp [performInit, performClear]

theorem Performed.complete_eq_or (h : Performed s i t) :
    t.complete = s.complete ∨ i = .padnull ∨ ∃ len, i = .pad len := by
  cases h <;> simp [performInit, performClear]

theorem Performed.complete_of_pad {len : Fin 64} (h : Performed s (.pad len) t) : t.complete = shapeA len := by
  cases h with
  | padA hn ha => exact ha.symm
  | padB hn hb => exact hb.symm

theorem Performed.complete_of_padnull (h : Performed s .padnull t) : t.complete = true := by
  cases h
  rfl

/-- R27: no command makes a buffer byte undefined. -/
theorem Performed.read_isSome_of_isSome (h : Performed s i t) {a : Nat} (ha : (s.mem.read a).isSome = true) :
    (t.mem.read a).isSome = true := by
  obtain hm | ⟨k, vs, hm, -⟩ | ⟨vs, hm, -⟩ := h.mem_cases
  · rwa [hm]
  · simp [hm, Memory.isSome_read_writeBytes, ha]
  · simp [hm, Memory.isSome_read_writeBytes, ha]

/-- R154: a byte of BLK that a command makes defined lies in the part that a pad writes. -/
theorem Performed.blkDef_cases (h : Performed s i t) {k : Nat} (hk : k < 64) (hdef : t.blkDef k = true) :
    s.blkDef k = true ∨ i = .padnull ∨ ∃ len : Fin 64, i = .pad len ∧ len.val ≤ k := by
  unfold State.blkDef at *
  obtain hm | ⟨j, vs, hm, -, hi⟩ | ⟨vs, hm, -⟩ := h.mem_cases
  · exact .inl (hm ▸ hdef)
  · rw [hm, Memory.isSome_read_writeBytes, Bool.or_eq_true, decide_eq_true_eq] at hdef
    obtain hin | hdef := hdef
    · obtain rfl | ⟨len, rfl, rfl⟩ := hi
      · exact .inr (.inl rfl)
      · exact .inr (.inr ⟨len, rfl, by omega⟩)
    · exact .inl hdef
  · rw [hm, Memory.read_writeBytes_outside (.inl (by simp only [blkBase, digBase]; omega))] at hdef
    exact .inl hdef

/-- R28, R29: EXTRACT defines every byte of DIG with DIG_VALID, the other commands leave both. -/
theorem Performed.digest_defined (h : Performed s i t)
    (hd : ∀ a, digBase ≤ a → a < bufferEnd → (s.mem.read a).isSome = s.digValid) :
    ∀ a, digBase ≤ a → a < bufferEnd → (t.mem.read a).isSome = t.digValid := by
  intro a hlo hhi
  rw [h.digValid_eq]
  by_cases hi : i = .extract
  · subst hi
    cases h
    have hin : digBase ≤ a ∧ a < digBase + 32 := ⟨hlo, hhi⟩
    simp [Memory.isSome_read_writeBytes, hin]
  · simp [h.read_digest hi hlo, hd a hlo hhi, hi]

end Performed

section AccessDone
variable {acc : HostAccess} {s t : State}

/-- What no access touches unless it raises a fault. -/
theorem AccessDone.frame (h : AccessDone acc s t) :
    t.h = s.h ∧ t.digValid = s.digValid ∧ t.phase = s.phase ∧ t.complete = s.complete ∧ t.fault = s.fault ∧
    t.fcode = s.fcode ∧ t.finfo0 = s.finfo0 ∧ t.finfo1 = s.finfo1 ∧ t.maxMsgBytes = s.maxMsgBytes := by
  cases h <;> exact ⟨rfl, rfl, rfl, rfl, rfl, rfl, rfl, rfl, rfl⟩

theorem AccessDone.mem_cases (h : AccessDone acc s t) :
    t.mem = s.mem ∨ ∃ off v, acc.op = .writeBlk off v ∧ t.mem = s.mem.write off v := by
  cases h with
  | writeBlk ho => exact .inr ⟨_, _, ho, rfl⟩
  | _ => exact .inl rfl

/-- R51: a legal write of a buffer byte is an 8-bit write of a byte of BLK. -/
theorem writeBlk_access {off : Nat} {v : Byte} (hl : acc.legal = true) (ho : acc.op = .writeBlk off v) :
    (blkBase ≤ off ∧ off < digBase) ∧ acc = ⟨BitVec.ofNat 8 off, .w8, .write, acc.data⟩ := by
  obtain ⟨o, width, dir, data⟩ := acc
  cases width <;> cases dir
  case w8.write =>
    simp only [HostAccess.op, PortOp.writeBlk.injEq] at ho
    obtain ⟨rfl, -⟩ := ho
    have hrange : 0x40 ≤ o.toNat ∧ o.toNat ≤ 0x7F := by simpa [HostAccess.legal] using hl
    exact ⟨⟨hrange.1, Nat.lt_succ_of_le hrange.2⟩, by simp⟩
  all_goals
    simp only [HostAccess.op] at ho
    repeat' split at ho
    all_goals cases ho

end AccessDone

end Sys2Proof.Machine

/-! ## The invariant (10_state.md R27 to R41) -/

namespace Sys2Proof.Machine

/-- What PHASE says of H and COMPLETE in an unfaulted block (10_state.md R34, R41; 42_padding.md R155). -/
def Phase.Agrees (h : Option Words8) (complete : Bool) : Phase → Prop
  | .uninit => h = none
  | .absorbing => h ≠ none
  | .paddedFinal | .done => h ≠ none ∧ complete = true
  | .paddedMore | .needNull => h ≠ none ∧ complete = false
  | .cleared => h = some zeroWords

/-- `Agrees` is the four clauses of `State.Inv` on PHASE, taken together. -/
theorem Phase.agrees_iff {p : Phase} {h : Option Words8} {c : Bool} :
    p.Agrees h c ↔ (h = none ↔ p = .uninit) ∧ (p = .paddedFinal ∨ p = .done → c = true) ∧
      (p = .paddedMore ∨ p = .needNull → c = false) ∧ (p = .cleared → h = some zeroWords) := by
  cases p with
  | cleared => cases h <;> simp [Phase.Agrees]
  | _ => simp [Phase.Agrees]

theorem State.Inv.phaseAgrees {s : State} (h : s.Inv) (hf : s.fault = false) : s.phase.Agrees s.h s.complete :=
  Phase.agrees_iff.mpr ⟨h.hashUndefinedIff, h.completeSet, h.completeClear, fun hp => h.clearedZero hp hf⟩

theorem State.Inv.pending_eq_none {s : State} (h : s.Inv) (hb : s.busy = false) : s.pending = none := by
  simpa [hb] using h.busyIffPending

theorem Phase.eq_absorbing_of_allows_pad {p : Phase} {len : Fin 64} (h : p.allows (.pad len) = true) :
    p = .absorbing := by
  cases p <;> simp [Phase.allows, Phase.next] at h ⊢

theorem Phase.eq_needNull_of_allows_padnull {p : Phase} (h : p.allows .padnull = true) : p = .needNull := by
  cases p <;> simp [Phase.allows, Phase.next] at h ⊢

/-- A performed command that its phase allows leaves PHASE in agreement with H and COMPLETE. -/
theorem Performed.phaseAgrees {s t : State} {i : Instr} (h : Performed s i t) (ha : s.phase.allows i = true)
    (hs : s.phase.Agrees s.h s.complete) : t.phase.Agrees t.h t.complete := by
  cases h with
  | init => exact Option.some_ne_none _
  | clear => rfl
  | extract => exact hs
  | @absorb w block after hh hb hp =>
    cases hphase : s.phase with
    | absorbing | paddedFinal | paddedMore =>
      simp only [hphase, Phase.afterAbsorb, Option.some.injEq] at hp
      simp only [hphase, Phase.Agrees] at hs
      simp [← hp, Phase.Agrees, hs]
    | _ => simp [hphase, Phase.afterAbsorb] at hp
  | padA | padB =>
    rw [Phase.eq_absorbing_of_allows_pad ha] at hs
    exact ⟨hs, rfl⟩
  | padnull =>
    rw [Phase.eq_needNull_of_allows_padnull ha] at hs
    exact ⟨hs.1, rfl⟩

/-- The invariant is about the block alone. -/
theorem SameBlock.inv {s t : State} (hs : SameBlock s t) (h : s.Inv) : t.Inv where
  memWf := by rw [hs.mem]; exact h.memWf
  busyIffPending := by rw [hs.busy, hs.pending]; exact h.busyIffPending
  hashUndefinedIff := by rw [hs.h, hs.phase]; exact h.hashUndefinedIff
  digestDefined := by rw [hs.mem, hs.digValid]; exact h.digestDefined
  noRecord := by rw [hs.fault, hs.fcode, hs.finfo0, hs.finfo1]; exact h.noRecord
  record := by rw [hs.fault, hs.fcode, hs.finfo1]; exact h.record
  faultedIdle := by rw [hs.fault, hs.busy]; exact h.faultedIdle
  pendingAccepted := by
    intro i hi
    rw [issueFault_congr i hs.phase hs.mem hs.mlenLo hs.mlenHi hs.param]
    exact h.pendingAccepted i (hs.pending ▸ hi)
  completeSet := by rw [hs.phase, hs.complete]; exact h.completeSet
  completeClear := by rw [hs.phase, hs.complete]; exact h.completeClear
  clearedZero := by rw [hs.phase, hs.fault, hs.h]; exact h.clearedZero
  paramRange := by rw [hs.param]; exact h.paramRange

theorem hardwareReset_inv {s : State} (h : 1 ≤ s.maxMsgBytes ∧ s.maxMsgBytes ≤ Config.maxMsgBytesLimit) :
    (hardwareReset s).Inv where
  memWf := rfl
  busyIffPending := rfl
  hashUndefinedIff := ⟨fun _ => rfl, fun _ => rfl⟩
  digestDefined := fun _ _ _ => rfl
  noRecord := fun _ => ⟨rfl, rfl, rfl⟩
  record := nofun
  faultedIdle := nofun
  pendingAccepted := nofun
  completeSet := by simp
  completeClear := by simp
  clearedZero := nofun
  paramRange := h

theorem FaultCode.code_range (c : FaultCode) : 1 ≤ c.code.toNat ∧ c.code.toNat ≤ 7 := by
  cases c <;> decide

/-- R37: FINFO1 is marked valid. -/
theorem info1_valid (acc : HostAccess) : acc.info1.getLsbD 31 = true := by
  simp [HostAccess.info1]

/-- R37: the reserved bits of FINFO1 are 0. -/
theorem info1_reserved (acc : HostAccess) : acc.info1.extractLsb' 10 21 = 0 := by
  obtain ⟨off, width, dir, data⟩ := acc
  have hoff : (off.zeroExtend 32).extractLsb' 10 21 = 0 := by
    ext i hi
    simp [BitVec.getLsbD_of_ge off (10 + i) (by omega)]
  simp only [HostAccess.info1, BitVec.extractLsb'_or, hoff]
  cases width <;> cases dir <;> decide

theorem raiseFault_inv {s : State} (code : FaultCode) (acc : HostAccess) (h : s.Inv) : (raiseFault code acc s).Inv where
  memWf := Memory.wf_havoc h.memWf
  busyIffPending := rfl
  hashUndefinedIff := by simpa using h.hashUndefinedIff
  digestDefined := by simpa using h.digestDefined
  noRecord := nofun
  record := fun _ => ⟨code.code_range.1, code.code_range.2, info1_valid acc, info1_reserved acc⟩
  faultedIdle := fun _ => rfl
  pendingAccepted := nofun
  completeSet := h.completeSet
  completeClear := h.completeClear
  clearedZero := nofun
  paramRange := h.paramRange

/-- A performed command leaves the block free and unfaulted, so only the buffers and PHASE's clauses are at stake. -/
theorem Performed.inv {s t : State} {i : Instr} (hperf : Performed s i t) (h : s.Inv) (hf : s.fault = false)
    (hp : s.pending = some i) : t.Inv := by
  obtain ⟨hbusy, hpend, hfault, hcode, hinfo0, hinfo1, -, -, -, -, -, hparam⟩ := hperf.frame
  have hallows : s.phase.allows i = true := (issueFault_eq_none.mp (h.pendingAccepted i hp)).1
  obtain ⟨hhash, hset, hclear, hzero⟩ := Phase.agrees_iff.mp (hperf.phaseAgrees hallows (h.phaseAgrees hf))
  exact {
    memWf := hperf.memWf h.memWf
    busyIffPending := by rw [hbusy, hpend]; rfl
    hashUndefinedIff := hhash
    digestDefined := hperf.digest_defined h.digestDefined
    noRecord := by rw [hfault, hcode, hinfo0, hinfo1]; exact h.noRecord
    record := by rw [hfault, hcode, hinfo1]; exact h.record
    faultedIdle := fun _ => hbusy
    pendingAccepted := by simp [hpend]
    completeSet := hset
    completeClear := hclear
    clearedZero := fun hc _ => hzero hc
    paramRange := by rw [hparam]; exact h.paramRange }

/-- An access keeps the invariant unless it raises a fault: it writes an operand only while nothing is pending (R240), and
a command is accepted once its issue checks pass. -/
theorem AccessDone.inv {acc : HostAccess} {s t : State} (hdone : AccessDone acc s t) (h : s.Inv)
    (hf : s.fault = false) (hl : acc.legal = true) : t.Inv := by
  cases hdone with
  | writeMlenLo ho hb => exact { h with pendingAccepted := by simp [h.pending_eq_none hb] }
  | writeMlenHi ho hb => exact { h with pendingAccepted := by simp [h.pending_eq_none hb] }
  | @writeBlk off v ho hb hp =>
    obtain ⟨⟨hlo, hhi⟩, -⟩ := writeBlk_access hl ho
    exact { h with
      memWf := Memory.wf_write h.memWf hlo (Nat.lt_trans hhi (by decide))
      digestDefined := fun a hdig hend => by
        have hne : a ≠ off := by omega
        simpa [Memory.isSome_read_write, hne] using h.digestDefined a hdig hend
      pendingAccepted := by simp [h.pending_eq_none hb] }
  | @accepted w i ho hb hd hi =>
    exact { h with
      busyIffPending := rfl
      faultedIdle := by simp [hf]
      pendingAccepted := by
        intro j hj
        cases hj
        exact (issueFault_congr i rfl rfl rfl rfl rfl).trans hi }
  | _ => exact (answer_sameBlock _ _).inv h

/-- Settles O40: each thing a step can do keeps the invariant. -/
theorem everyStepKeepsTheInvariant : Obligations.EveryStepKeepsTheInvariant := by
  intro s t h hstep
  have hdrop : (dropInput s).Inv := (dropInput_sameBlock s).inv h
  cases step_effect hstep with
  | performed _ _ hf hp hperf => exact hperf.inv hdrop hf hp
  | reset _ => exact hardwareReset_inv h.paramRange
  | faulted _ hs => exact raiseFault_inv _ _ (hs.inv h)
  | accessed _ hf hl hdone => exact hdone.inv hdrop hf hl
  | same hs => exact hs.inv h

/-- Settles O39: a reset block is what RST makes of it. -/
theorem resetMeetsTheInvariant : Obligations.ResetMeetsTheInvariant :=
  hardwareReset_inv (s := State.reset) (by decide)

/-- Settles O9: every conjunct is the value of a field of `State.reset`. -/
theorem resetLeavesTheSpecValues : Obligations.ResetLeavesTheSpecValues :=
  ⟨rfl, fun _ _ => rfl, rfl, rfl, rfl, rfl, rfl, rfl, rfl, rfl, rfl, rfl, rfl⟩

end Sys2Proof.Machine

/-! ## What changes H, the BLKdef bits, DIG_VALID and COMPLETE -/

namespace Sys2Proof.Machine

/-- R132's table, as a list of its rows. -/
theorem Phase.afterAbsorb_of_row {p after : Phase}
    (h : (p, after) ∈ [(.absorbing, .absorbing), (.paddedFinal, .done), (.paddedMore, Phase.needNull)]) :
    p.afterAbsorb = some after := by
  simp only [List.mem_cons, Prod.mk.injEq, List.not_mem_nil, or_false] at h
  obtain ⟨rfl, rfl⟩ | ⟨rfl, rfl⟩ | ⟨rfl, rfl⟩ := h <;> rfl

/-- Settles O13: with its operands and a next phase, `performAbsorb` answers the stated state. -/
theorem absorbCompressesTheBlock : Obligations.AbsorbCompressesTheBlock := by
  intro s h block after hb hh hlen hread hrow
  have hblock : s.block = some block := block_eq_some.mpr ⟨hlen, hread⟩
  rw [exec_absorb_of_busy hb]
  simp [performAbsorb, hh, hblock, Phase.afterAbsorb_of_row hrow, finish]

/-- Settles O35: of a step's effects only fault entry sets FAULT, and it keeps what is defined. -/
theorem faultKeepsWhatIsDefined : Obligations.FaultKeepsWhatIsDefined := by
  intro s t hf hstep ht
  have hflag : t.fault ≠ s.fault := by simp [hf, ht]
  cases step_effect hstep with
  | performed _ _ _ _ hperf =>
    obtain ⟨-, -, hfault, -⟩ := hperf.frame
    exact absurd hfault hflag
  | reset _ => exact absurd ht Bool.false_ne_true
  | faulted _ hs => simp [hs.h, hs.mem]
  | accessed _ _ _ hdone =>
    obtain ⟨-, -, -, -, hfault, -⟩ := hdone.frame
    exact absurd hfault hflag
  | same hs => exact absurd hs.fault hflag

/-- Settles O42, by the effects of a step and, for a performed command, `Performed.hash_eq_or`. -/
theorem onlyThreeCommandsWriteTheHash : Obligations.OnlyThreeCommandsWriteTheHash := by
  intro s t hstep hne
  cases step_effect hstep with
  | performed hturn hb hf hp hperf =>
    have hcmd := hperf.hash_eq_or.resolve_left hne
    exact .inl ⟨hb, hf, hturn, by simpa [hp] using hcmd⟩
  | reset hin => exact .inr (.inr ⟨_, hin⟩)
  | faulted hf _ => exact .inr (.inl ⟨hf, rfl⟩)
  | accessed _ _ _ hdone =>
    obtain ⟨hhash, -⟩ := hdone.frame
    exact absurd hhash hne
  | same hs => exact absurd hs.h hne

/-- A step other than RST clears no BLKdef bit. -/
theorem StepEffect.blkDef_of_blkDef {s t : State} (h : StepEffect s t) (hrst : ¬ ∃ rest, s.inputs = .rst :: rest)
    {i : Nat} (hdef : s.blkDef i = true) : t.blkDef i = true := by
  unfold State.blkDef at *
  cases h with
  | performed _ _ _ _ hperf => exact hperf.read_isSome_of_isSome hdef
  | reset hin => exact absurd ⟨_, hin⟩ hrst
  | faulted _ hs => simpa [hs.mem] using hdef
  | accessed _ _ _ hdone =>
    obtain hm | ⟨off, v, -, hm⟩ := hdone.mem_cases
    · simpa [hm] using hdef
    · simp [hm, Memory.isSome_read_write, hdef]
  | same hs => rwa [hs.mem]

/-- A step that sets a BLKdef bit is a host write of that byte or performs a pad that covers it. -/
theorem StepEffect.blkDef_set {s t : State} (h : StepEffect s t) {i : Nat} (hi : i < 64)
    (hundef : s.blkDef i = false) (hdef : t.blkDef i = true) :
    (∃ v rest, s.inputs = .access ⟨BitVec.ofNat 8 (0x40 + i), .w8, .write, v⟩ :: rest) ∨
    (s.busy = true ∧ s.fault = false ∧ (s.inputs = [] ∨ ∃ rest, s.inputs = .core :: rest) ∧
      (s.pending = some .padnull ∨ ∃ len : Fin 64, s.pending = some (.pad len) ∧ len.val ≤ i)) := by
  have hold : s.mem.read (blkBase + i) = none := by simpa [State.blkDef] using hundef
  cases h with
  | performed hturn hb hf hp hperf =>
    have hcmd := (hperf.blkDef_cases hi hdef).resolve_left (by simp [State.blkDef, hold])
    exact .inr ⟨hb, hf, hturn, by simpa [hp] using hcmd⟩
  | reset _ => exact absurd hdef Bool.false_ne_true
  | faulted _ hs => simp [State.blkDef, hs.mem, hold] at hdef
  | @accessed acc rest _ hin _ hl hdone =>
    obtain hm | ⟨off, v, ho, hm⟩ := hdone.mem_cases
    · simp [State.blkDef, hm, hold] at hdef
    · have hoff : blkBase + i = off := by
        simpa [State.blkDef, hm, Memory.isSome_read_write, hold] using hdef
      obtain ⟨-, hacc⟩ := writeBlk_access hl ho
      subst hoff
      exact .inl ⟨acc.data, rest, hin.trans (by rw [hacc]; rfl)⟩
  | same hs => simp [State.blkDef, hs.mem, hold] at hdef

/-- Settles O43, by the two lemmas above. -/
theorem blockDefinednessChangesAsStated : Obligations.BlockDefinednessChangesAsStated := by
  intro s t i hi hstep
  have heffect := step_effect hstep
  refine ⟨fun hdef hundef => ?_, heffect.blkDef_set hi⟩
  exact Classical.byContradiction fun hrst =>
    Bool.false_ne_true (hundef.symm.trans (heffect.blkDef_of_blkDef hrst hdef))

/-- A step that changes DIG_VALID performs EXTRACT or is RST. -/
theorem StepEffect.digValid_changes {s t : State} (h : StepEffect s t) (hne : t.digValid ≠ s.digValid) :
    ((s.inputs = [] ∨ ∃ rest, s.inputs = .core :: rest) ∧ s.busy = true ∧ s.fault = false ∧
      s.pending = some .extract ∧ t.digValid = true) ∨
    ((∃ rest, s.inputs = .rst :: rest) ∧ t.digValid = false) := by
  cases h with
  | @performed i _ hturn hb hf hp hperf =>
    have hi : i = .extract := Decidable.byContradiction fun hi => hne (by simp [hperf.digValid_eq, hi])
    subst hi
    exact .inl ⟨hturn, hb, hf, hp, by simp [hperf.digValid_eq]⟩
  | reset hin => exact .inr ⟨⟨_, hin⟩, rfl⟩
  | faulted _ hs => exact absurd hs.digValid hne
  | accessed _ _ _ hdone =>
    obtain ⟨-, hdig, -⟩ := hdone.frame
    exact absurd hdig hne
  | same hs => exact absurd hs.digValid hne

/-- Settles O44: the lemma above says who changes DIG_VALID, the other two parts say that they do. -/
theorem digValidChangesAsStated : Obligations.DigValidChangesAsStated := by
  intro s t hstep
  refine ⟨(step_effect hstep).digValid_changes, fun hrst => ?_, fun hturn hb hf hp => ?_⟩
  · rw [step_resets hstep hrst]
    rfl
  · simp [(step_performs hstep hturn hb hf hp).digValid_eq]

/-- A step that changes COMPLETE performs a pad or is RST. -/
theorem StepEffect.complete_changes {s t : State} (h : StepEffect s t) (hne : t.complete ≠ s.complete) :
    (∃ rest, s.inputs = .rst :: rest) ∨
    ((s.inputs = [] ∨ ∃ rest, s.inputs = .core :: rest) ∧ s.busy = true ∧ s.fault = false ∧
      (s.pending = some .padnull ∨ ∃ len, s.pending = some (.pad len))) := by
  cases h with
  | performed hturn hb hf hp hperf =>
    have hcmd := hperf.complete_eq_or.resolve_left hne
    exact .inr ⟨hturn, hb, hf, by simpa [hp] using hcmd⟩
  | reset hin => exact .inl ⟨_, hin⟩
  | faulted _ hs => exact absurd hs.complete hne
  | accessed _ _ _ hdone =>
    obtain ⟨-, -, -, hcomplete, -⟩ := hdone.frame
    exact absurd hcomplete hne
  | same hs => exact absurd hs.complete hne

/-- R38: bit 1 of STATUS. -/
theorem status_complete (s : State) : s.status.getLsbD 1 = s.complete := by
  simp only [State.status, BitVec.getLsbD_setWidth, BitVec.getLsbD_append]
  simp

/-- Settles O45: the lemma above says who changes COMPLETE, the other parts to which value, and where STATUS shows it. -/
theorem completeHoldsThePadResult : Obligations.CompleteHoldsThePadResult := by
  intro s t hstep
  refine ⟨(step_effect hstep).complete_changes, fun hrst => ?_, fun hturn hb hf => ⟨fun hp => ?_, fun len hp => ?_⟩,
    status_complete t⟩
  · rw [step_resets hstep hrst]
    rfl
  · exact (step_performs hstep hturn hb hf hp).complete_of_padnull
  · exact (step_performs hstep hturn hb hf hp).complete_of_pad

end Sys2Proof.Machine

/-! ## Big-endian bytes, and where a pad and a digest put them (40_primitives.md R114, 20_memory.md R62, R63) -/

namespace Sys2Proof.Machine

/-- A byte of a word is a floor division of the number it holds, even of one too large for the word. -/
theorem extractByte_ofNat {w : Nat} (n : Nat) {j : Nat} (hj : j + 8 ≤ w) :
    (BitVec.ofNat w n).extractLsb' j 8 = BitVec.ofNat 8 (n / 2 ^ j) := by
  apply BitVec.eq_of_getLsbD_eq
  intro i hi
  rw [BitVec.getLsbD_extractLsb', BitVec.getLsbD_ofNat, BitVec.getLsbD_ofNat, Nat.testBit_div_two_pow, Nat.add_comm i j]
  simp [show j + i < w by omega]

theorem bytesBE32_eq_map (x : Word) : bytesBE32 x = (List.range 4).map fun k => x.extractLsb' (24 - 8 * k) 8 := rfl

theorem bytesBE64_eq_map (x : BitVec 64) :
    bytesBE64 x = (List.range 8).map fun k => x.extractLsb' (56 - 8 * k) 8 := rfl

/-- Byte k of a word, the most significant first. -/
theorem getElem?_bytesBE32 (x : Word) {k : Nat} (hk : k < 4) :
    (bytesBE32 x)[k]? = some (BitVec.ofNat 8 (x.toNat / 2 ^ (24 - 8 * k))) := by
  have hbyte := extractByte_ofNat (w := 32) x.toNat (j := 24 - 8 * k) (by omega)
  rw [BitVec.ofNat_toNat, BitVec.setWidth_eq] at hbyte
  simp [bytesBE32_eq_map, hk, hbyte]

/-- Byte k of the bit count of a message of n bytes (R151): reducing 8·n modulo 2^64 changes none of the eight bytes. -/
theorem getElem?_bytesBE64_bitCount (n : Nat) {k : Nat} (hk : k < 8) :
    (bytesBE64 (bitCount (BitVec.ofNat 64 n)))[k]? = some (BitVec.ofNat 8 (8 * n / 2 ^ (56 - 8 * k))) := by
  have hcount : bitCount (BitVec.ofNat 64 n) = BitVec.ofNat 64 (8 * n) := by
    rw [Nat.mul_comm, BitVec.ofNat_mul]
    rfl
  have hbyte := extractByte_ofNat (w := 64) (8 * n) (j := 56 - 8 * k) (by omega)
  simp [hcount, bytesBE64_eq_map, hk, hbyte]

/-- The serialised words: byte k of word i stands at 4·i + k. -/
theorem getElem?_flatMap_bytesBE32 (ws : List Word) (i : Nat) {k : Nat} (hk : k < 4) :
    (ws.flatMap bytesBE32)[4 * i + k]? = ws[i]?.bind fun w => (bytesBE32 w)[k]? := by
  induction ws generalizing i with
  | nil => rfl
  | cons w ws ih =>
    rw [List.flatMap_cons]
    cases i with
    | zero =>
      rw [List.getElem?_append_left (by simpa using hk)]
      simp
    | succ i =>
      have hidx : 4 * (i + 1) + k - (bytesBE32 w).length = 4 * i + k := by rw [bytesBE32_length]; omega
      rw [List.getElem?_append_right (by rw [bytesBE32_length]; omega), hidx, ih]
      simp

/-- A byte that `writeBytes` writes, by its place among those it writes. -/
theorem Memory.read_writeBytes_inside {vs : List Byte} {m : Memory} {a x i : Nat} (hx : x = a + i)
    (hi : i < vs.length) : (Memory.writeBytes m a vs).read x = vs[i]? := by
  subst hx
  rw [Memory.read_writeBytes, if_pos (by omega), Nat.add_sub_cancel_left]

/-! Both pads with a length field end with zeros and the bit count (R152, R153). -/

theorem Memory.read_writeBytes_zeros_count {m : Memory} {a n x i : Nat} (hx : x = a + i) (hi : i < n)
    (l : BitVec 64) : (m.writeBytes a (List.replicate n 0x00 ++ bytesBE64 l)).read x = some 0x00 := by
  rw [Memory.read_writeBytes_inside hx (by simp; omega), List.getElem?_append_left (by simpa using hi)]
  simp [hi]

theorem Memory.read_writeBytes_count {m : Memory} {a n x k : Nat} (hx : x = a + n + k) (hk : k < 8) (mlen : Nat) :
    (m.writeBytes a (List.replicate n 0x00 ++ bytesBE64 (bitCount (BitVec.ofNat 64 mlen)))).read x =
      some (BitVec.ofNat 8 (8 * mlen / 2 ^ (56 - 8 * k))) := by
  rw [Memory.read_writeBytes_inside (i := n + k) (by omega) (by simpa using hk),
    List.getElem?_append_right (by simp)]
  simpa using getElem?_bytesBE64_bitCount mlen hk

/-- Shape A is 0x80 followed by what Shape C writes, with fewer zeros. -/
theorem Memory.writeBytes_padShapeA (m : Memory) (a len : Nat) (l : BitVec 64) :
    m.writeBytes a (padShapeA len l) =
      (m.write a 0x80).writeBytes (a + 1) (List.replicate (55 - len) 0x00 ++ bytesBE64 l) :=
  Memory.writeBytes_cons m a 0x80 _

theorem mlen_of_halves {s : State} {lo hi : Word} (hlo : s.mlenLo = some lo) (hhi : s.mlenHi = some hi) :
    s.mlen = some (BitVec.ofNat 64 (hi.toNat * 2 ^ 32 + lo.toNat)) :=
  mlen_eq_some.mpr ⟨hi, lo, hhi, hlo, rfl⟩

/-- Settles O18: byte by byte, what writing `padShapeA` leaves. -/
theorem padShapeAWritesTheFinalBlock : Obligations.PadShapeAWritesTheFinalBlock := by
  intro s len lo hi hb hlo hhi hlen
  have hshape : shapeA len = true := decide_eq_true hlen
  rw [exec_pad_of_busy len hb]
  simp only [performPad, mlen_of_halves hlo hhi, hshape, if_true]
  refine ⟨_, rfl, rfl, ?_, fun i hi' hi56 => ?_, fun k hk => ?_, fun a ha => ?_⟩ <;>
    simp only [finish_mem, blkBase]
  · rw [Memory.writeBytes_padShapeA, Memory.read_writeBytes_outside (.inl (Nat.lt_succ_self _)), Memory.read_write,
      if_pos rfl]
  · rw [Memory.writeBytes_padShapeA]
    exact Memory.read_writeBytes_zeros_count (i := i - (len.val + 1)) (by omega) (by omega) _
  · rw [Memory.writeBytes_padShapeA]
    exact Memory.read_writeBytes_count (by omega) hk _
  · exact Memory.read_writeBytes_outside (by rw [padShapeA_length _ hlen]; omega)

/-- Settles O20: byte by byte, what writing `padShapeC` leaves. -/
theorem padnullWritesTheLengthBlock : Obligations.PadnullWritesTheLengthBlock := by
  intro s lo hi hb hlo hhi
  rw [exec_padnull_of_busy hb]
  simp only [performPadnull, mlen_of_halves hlo hhi]
  refine ⟨_, rfl, rfl, fun i hi' => ?_, fun k hk => ?_, fun a ha => ?_⟩ <;> simp only [finish_mem, blkBase]
  · exact Memory.read_writeBytes_zeros_count rfl hi' _
  · exact Memory.read_writeBytes_count rfl hk _
  · exact Memory.read_writeBytes_outside (by rw [padShapeC_length]; omega)

/-- Settles O23: the digest's byte 4·i + k is byte k of word i. -/
theorem extractSerializesTheStateWords : Obligations.ExtractSerializesTheStateWords := by
  intro s h hb hh
  rw [exec_extract_of_busy hb]
  simp only [performExtract, hh]
  refine ⟨_, rfl, rfl, fun i k hi hk => ?_, fun a ha => ?_⟩ <;> simp only [finish_mem, digBase]
  · have hword : h.toList[i]? = some (h.toList[i]'hi) := List.getElem?_eq_getElem hi
    refine ⟨_, hword, ?_⟩
    rw [Memory.read_writeBytes_inside (i := 4 * i + k) (by omega) (by rw [digest_length]; omega), Words8.digest,
      getElem?_flatMap_bytesBE32 _ _ hk, hword]
    exact getElem?_bytesBE32 _ hk
  · exact Memory.read_writeBytes_outside (by rw [digest_length]; omega)

end Sys2Proof.Machine

/-! ## Illegal accesses, reads of the status registers, and steps that complete (20_memory.md R52, R57, R69) -/

namespace Sys2Proof.Machine

/-- The address map of R51, row by row: CMD, the status registers, the MLEN halves, BLK, DIG. -/
theorem legal_iff {acc : HostAccess} : acc.legal = true ↔
    (acc.off = 0x00 ∧ acc.width = .w32 ∧ acc.dir = .write) ∨
    (acc.off.toNat ∈ [0x04, 0x08, 0x0C] ∧ acc.width = .w32 ∧ acc.dir = .read) ∨
    (acc.off.toNat ∈ [0x10, 0x14] ∧ acc.width = .w32) ∨
    (0x40 ≤ acc.off.toNat ∧ acc.off.toNat ≤ 0x7F ∧ acc.width = .w8) ∨
    (0x80 ≤ acc.off.toNat ∧ acc.off.toNat ≤ 0x9F ∧ acc.width = .w8 ∧ acc.dir = .read) := by
  have hoff : ∀ k : BitVec 8, acc.off = k ↔ acc.off.toNat = k.toNat := fun k => BitVec.toNat_inj.symm
  simp [HostAccess.legal, hoff, or_assoc, and_assoc]

/-- An offset fills the low byte of a word whose low byte is 0. -/
theorem toNat_or_zeroExtend {c : Word} (hc : c.toNat % 2 ^ 8 = 0) (off : BitVec 8) :
    (c ||| off.zeroExtend 32).toNat = c.toNat + off.toNat := by
  have hsplit : c.toNat = 2 ^ 8 * (c.toNat / 2 ^ 8) := by omega
  rw [BitVec.toNat_or, BitVec.toNat_setWidth_of_le (by decide), hsplit, ← Nat.two_pow_add_eq_or_of_lt off.isLt]

/-- R205: FINFO1 as a number. -/
theorem info1_toNat (acc : HostAccess) : acc.info1.toNat =
    2 ^ 31 + (if acc.width = .w32 then 2 ^ 9 else 0) + (if acc.dir = .write then 2 ^ 8 else 0) + acc.off.toNat := by
  rw [HostAccess.info1, toNat_or_zeroExtend] <;> cases acc.width <;> cases acc.dir <;> rfl

/-- R205: FINFO0 as a number. -/
theorem info0_toNat (acc : HostAccess) : acc.info0.toNat =
    match acc.dir, acc.width with
    | .write, .w32 => acc.data.toNat
    | .write, .w8 => acc.data.toNat % 2 ^ 8
    | .read, _ => 0 := by
  obtain ⟨off, width, dir, data⟩ := acc
  cases dir <;> cases width <;> simp [HostAccess.info0]
  omega

/-- `raiseFault` is fault entry as R201 and R205 describe it. -/
theorem raiseFault_faultEntered {s s' : State} (code : FaultCode) (acc : HostAccess) (hs : SameBlock s s') :
    FaultEntered code.code.toNat acc s (raiseFault code acc s') where
  fault := rfl
  fcode := rfl
  finfo0 := info0_toNat acc
  finfo1 := info1_toNat acc
  abandoned := ⟨rfl, rfl⟩
  phase := hs.phase
  complete := hs.complete
  digValid := hs.digValid
  mlenLo := hs.mlenLo
  mlenHi := hs.mlenHi
  writeSilent := fun hw => by simp [HostAccess.unspecifiedReply, hw]
  param := hs.param

theorem setInputs_sameBlock (s : State) (rest : List Input) : SameBlock s { s with inputs := rest } := by
  constructor <;> rfl

/-- Settles O27: the access is not legal, so it is the check of R52 that it fails. -/
theorem illegalAccessRaisesBadAccess : Obligations.IllegalAccessRaisesBadAccess := by
  intro s rest acc hin hf hmap
  have hl : acc.legal = false := Bool.eq_false_iff.mpr (mt legal_iff.mp hmap)
  refine ⟨_, (step_access hin).trans (access_of_illegal hf hl), rfl, ?_⟩
  exact raiseFault_faultEntered .badAccess acc (setInputs_sameBlock s rest)

/-- Appended fields as a number: the low field, and the high field above it. -/
theorem toNat_append_eq_add {m n : Nat} (x : BitVec m) (y : BitVec n) :
    (x ++ y).toNat = 2 ^ n * x.toNat + y.toNat := by
  rw [BitVec.toNat_append, Nat.shiftLeft_eq, Nat.mul_comm, Nat.two_pow_add_eq_or_of_lt y.isLt]

/-- R38: STATUS as a number, field by field. -/
theorem status_toNat (s : State) : s.status.toNat = s.busy.toNat + 2 * s.complete.toNat + 4 * s.fault.toNat
    + 8 * s.digValid.toNat + 16 * s.phase.code.toNat + 256 * s.fcode.toNat := by
  rw [State.status, BitVec.toNat_setWidth_of_le (by decide)]
  simp only [toNat_append_eq_add, BitVec.toNat_ofBool, BitVec.toNat_ofNat]
  omega

/-- Settles O29, by the read of each register and `status_toNat`. -/
theorem statusReadsReturnTheRegisters : Obligations.StatusReadsReturnTheRegisters := by
  refine ⟨fun s rest v => ⟨fun hin => ?_, fun hin => ?_, fun hin => ?_⟩, fun s => ?_⟩
  · rw [step_access hin, access_readStatus]
    rfl
  · rw [step_access hin, access_readFinfo0]
    rfl
  · rw [step_access hin, access_readFinfo1]
    rfl
  · rw [status_toNat]
    cases s.phase <;> rfl

theorem coreTurn_of_not_enabled {s : State} (h : s.busy = false ∨ s.fault = true) : coreTurn s = .next s := by
  obtain h | h := h <;> simp [coreTurn, h]

theorem coreTurn_of_pending {s : State} {i : Instr} (hb : s.busy = true) (hf : s.fault = false)
    (hp : s.pending = some i) : coreTurn s = exec i s := by
  simp [coreTurn, hb, hf, hp]

/-- R208: with the invariant a core turn completes. -/
theorem State.Inv.coreTurn_next {s : State} (h : s.Inv) : ∃ t, coreTurn s = .next t := by
  by_cases hoff : s.busy = false ∨ s.fault = true
  · exact ⟨s, coreTurn_of_not_enabled hoff⟩
  · obtain ⟨hb, hf⟩ : s.busy = true ∧ s.fault = false := by simpa using hoff
    obtain ⟨i, hi⟩ : ∃ i, s.pending = some i := Option.isSome_iff_exists.mp (h.busyIffPending ▸ hb)
    rw [coreTurn_of_pending hb hf hi]
    exact exec_busy_of_accepted hb (h.pendingAccepted i hi) h.hashUndefinedIff.mp

/-- Settles O41, by what stands first among the inputs. -/
theorem everyStepCompletes : Obligations.EveryStepCompletes := by
  intro s hinv hone
  have hcore (hturn : s.inputs = [] ∨ ∃ rest, s.inputs = .core :: rest) : ∃ t, step s = .next t := by
    rw [step_core hturn]
    exact ((setInputs_sameBlock s _).inv hinv).coreTurn_next
  match hin : s.inputs with
  | [] => exact hcore (.inl hin)
  | .core :: rest => exact hcore (.inr ⟨rest, hin⟩)
  | .access acc :: rest =>
    rw [step_access hin]
    exact access_next acc _
  | .rst :: rest => exact ⟨_, step_rst hin⟩
  | .secondHost acc :: rest => exact absurd hin (hone acc rest)

/-- A CMD write of a command's word to a free block. -/
theorem step_cmdWrite {s : State} {rest : List Input} {w : Word} {i : Instr}
    (hin : s.inputs = .access (cmdWrite w) :: rest) (hf : s.fault = false) (hb : s.busy = false)
    (hd : decode w = .ok i) : step s = exec i { s with inputs := rest, reply := .silent } := by
  rw [step_access hin, access_cmdWrite (s := { s with inputs := rest }) hf hb, hd]
  rfl

/-- A table word that decodes is the word of a command. -/
theorem decode_of_decodeTableWord {nbits w : Nat} {i : Instr} (h : decodeTableWord nbits w = some i) :
    decode (BitVec.ofNat 32 (w % 2 ^ nbits)) = .ok i := by
  unfold decodeTableWord at h
  cases hd : decode (BitVec.ofNat 32 (w % 2 ^ nbits)) with
  | error e => simp [hd, Except.toOption] at h
  | ok j => simpa [hd, Except.toOption] using h

/-- Settles O7: `withFetchWord` places the CMD write in a block it makes free. -/
theorem stepRunsTheWrittenCommand : Obligations.StepRunsTheWrittenCommand :=
  ⟨fun _ _ _ _ hin hf hb hd => step_cmdWrite hin hf hb hd,
   fun _ _ _ _ h => step_cmdWrite rfl rfl rfl (decode_of_decodeTableWord h)⟩

/-- Settles O33: a second host's input reaches `handle`'s refusal. -/
theorem secondHostIsRefused : Obligations.SecondHostIsRefused := by
  intro s rest acc hin
  simp [step, turn, hin, handle]

end Sys2Proof.Machine

/-! ## The command word: decoder, encoder, opcode map, assembler lines (30_encoding.md R80 to R89) -/

namespace Sys2Proof
open Machine

/-- The number a word holds, field by field (R80). -/
theorem toNat_eq_fields (w : Word) :
    w.toNat = (opcField w).toNat + (lenBits w).toNat * 2 ^ 8 + (rsvField w).toNat * 2 ^ 14 := by
  have hw := w.isLt
  simp only [opcField, lenBits, rsvField, BitVec.extractLsb'_toNat, Nat.shiftRight_eq_div_pow]
  omega

theorem eq_iff_fields {v w : Word} :
    v = w ↔ rsvField v = rsvField w ∧ opcField v = opcField w ∧ lenBits v = lenBits w := by
  refine ⟨fun h => h ▸ ⟨rfl, rfl, rfl⟩, fun ⟨hrsv, hopc, hlen⟩ => BitVec.eq_of_toNat_eq ?_⟩
  rw [toNat_eq_fields v, toNat_eq_fields w, hrsv, hopc, hlen]

theorem operandFits (i : Instr) : Laws.OperandFits.Statement i := by
  cases i with
  | init => exact Laws.OperandFits.init
  | absorb => exact Laws.OperandFits.absorb
  | pad len => exact Laws.OperandFits.pad len
  | padnull => exact Laws.OperandFits.padnull
  | extract => exact Laws.OperandFits.extract
  | clear => exact Laws.OperandFits.clear

theorem encode_toNat (i : Instr) : (encode i).toNat = i.opcode.toNat + i.lenField.toNat * 2 ^ 8 :=
  have ⟨_, hsum, _⟩ := operandFits i
  hsum

theorem encode_fields (i : Instr) :
    rsvField (encode i) = 0 ∧ opcField (encode i) = i.opcode ∧ lenBits (encode i) = i.lenField := by
  obtain ⟨-, -, hrsv⟩ := operandFits i
  have hsum := toNat_eq_fields (encode i)
  rw [encode_toNat, hrsv, BitVec.ofNat_eq_ofNat, BitVec.toNat_ofNat, Nat.zero_mod] at hsum
  have hopc := (opcField (encode i)).isLt
  have hopc' := i.opcode.isLt
  refine ⟨hrsv, BitVec.eq_of_toNat_eq ?_, BitVec.eq_of_toNat_eq ?_⟩ <;> omega

theorem decodePlain_eq_ok {i j : Instr} {len : BitVec 6} : decodePlain i len = .ok j ↔ i = j ∧ len = 0 := by
  unfold decodePlain
  split
  · next h => simp [h]
  · next h => exact ⟨nofun, fun ⟨_, hlen⟩ => absurd hlen h⟩

/-- A row of `decode` for a command without an operand. -/
theorem fields_of_decodePlain {w : Word} {i j : Instr} (h : decodePlain i (lenBits w) = .ok j)
    (hopc : opcField w = i.opcode) (hzero : i.lenField = 0) : opcField w = j.opcode ∧ lenBits w = j.lenField := by
  obtain ⟨rfl, hlen⟩ := decodePlain_eq_ok.mp h
  exact ⟨hopc, hlen.trans hzero.symm⟩

/-- A word decodes to a command iff its fields are the command's (R84). -/
theorem decode_eq_ok_iff_fields {w : Word} {i : Instr} :
    decode w = .ok i ↔ rsvField w = 0 ∧ opcField w = i.opcode ∧ lenBits w = i.lenField := by
  constructor
  · intro h
    unfold decode at h
    split at h
    · cases h
    next hrsv =>
    refine ⟨Decidable.of_not_not hrsv, ?_⟩
    split at h
    · next hopc => exact fields_of_decodePlain h hopc rfl
    split at h
    · next hopc => exact fields_of_decodePlain h hopc rfl
    split at h
    · next hopc =>
      cases h
      exact ⟨hopc, rfl⟩
    split at h
    · next hopc => exact fields_of_decodePlain h hopc rfl
    split at h
    · next hopc => exact fields_of_decodePlain h hopc rfl
    split at h
    · next hopc => exact fields_of_decodePlain h hopc rfl
    cases h
  · rintro ⟨hrsv, hopc, hlen⟩
    cases i <;> simp [decode, decodePlain, hrsv, hopc, hlen, Instr.opcode, Instr.lenField]

theorem decode_eq_ok_iff {w : Word} {i : Instr} : decode w = .ok i ↔ w = encode i := by
  obtain ⟨hrsv, hopc, hlen⟩ := encode_fields i
  rw [decode_eq_ok_iff_fields, eq_iff_fields, hrsv, hopc, hlen]

/-- Settles O1: a word decodes to the command whose fields it has, and the encoding is the word with these fields. -/
theorem decodeAndEncodeAgree : Obligations.DecodeAndEncodeAgree := fun _ _ => decode_eq_ok_iff

theorem decode_encode (i : Instr) : decode (encode i) = .ok i := decode_eq_ok_iff.mpr rfl

theorem encode_injective : Function.Injective encode := fun i _ h =>
  Except.ok.inj ((decode_encode i).symm.trans (decode_eq_ok_iff.mpr h))

/-! ## The opcode map (R84) -/

theorem fields_and (v w : Word) : rsvField (v &&& w) = rsvField v &&& rsvField w ∧
    opcField (v &&& w) = opcField v &&& opcField w ∧ lenBits (v &&& w) = lenBits v &&& lenBits w :=
  ⟨BitVec.extractLsb'_and, BitVec.extractLsb'_and, BitVec.extractLsb'_and⟩

/-- PAD's mask leaves LEN free and keeps the other two fields. -/
theorem and_padMask_eq_iff {w : Word} : w &&& 0xFFFFC0FF = 0x00000003 ↔ rsvField w = 0 ∧ opcField w = 0x03 := by
  obtain ⟨hrsv, hopc, hlen⟩ := fields_and w 0xFFFFC0FF
  have hrow : rsvField 0xFFFFC0FF = BitVec.allOnes 18 ∧ opcField 0xFFFFC0FF = BitVec.allOnes 8 ∧
    lenBits 0xFFFFC0FF = 0#6 := by decide
  have hword : rsvField 0x00000003 = 0 ∧ opcField 0x00000003 = 0x03 ∧ lenBits 0x00000003 = 0 := by decide
  obtain ⟨hrowRsv, hrowOpc, hrowLen⟩ := hrow
  obtain ⟨hwordRsv, hwordOpc, hwordLen⟩ := hword
  rw [eq_iff_fields, hrsv, hopc, hlen, hrowRsv, hrowOpc, hrowLen, hwordRsv, hwordOpc, hwordLen]
  simp only [BitVec.and_allOnes, BitVec.and_zero, BitVec.ofNat_eq_ofNat, and_true]

/-- A mnemonic without an operand has one command. -/
theorem Instr.mnemonic_eq_iff {i j : Instr} (hi : i.mnemonic ≠ .pad) : j.mnemonic = i.mnemonic ↔ j = i := by
  cases i with
  | pad len => exact absurd rfl hi
  | _ => cases j <;> simp [Instr.mnemonic]

theorem Instr.mnemonic_eq_pad {i : Instr} : i.mnemonic = .pad ↔ ∃ len, i = .pad len := by
  cases i <;> simp [Instr.mnemonic]

theorem exists_decode_iff_of_ne_pad {w : Word} {i : Instr} (hi : i.mnemonic ≠ .pad) :
    (∃ j, decode w = .ok j ∧ j.mnemonic = i.mnemonic) ↔ w &&& 0xFFFFFFFF = encode i := by
  have hmask : w &&& 0xFFFFFFFF = w := BitVec.and_allOnes
  rw [hmask]
  simp only [Instr.mnemonic_eq_iff hi, exists_eq_right, decode_eq_ok_iff]

theorem exists_decode_pad_iff {w : Word} :
    (∃ i, decode w = .ok i ∧ i.mnemonic = .pad) ↔ w &&& 0xFFFFC0FF = 0x00000003 := by
  rw [and_padMask_eq_iff]
  constructor
  · rintro ⟨i, hdec, hi⟩
    obtain ⟨len, rfl⟩ := Instr.mnemonic_eq_pad.mp hi
    obtain ⟨hrsv, hopc, -⟩ := decode_eq_ok_iff_fields.mp hdec
    exact ⟨hrsv, hopc⟩
  · rintro ⟨hrsv, hopc⟩
    exact ⟨.pad (lenBits w).toFin, decode_eq_ok_iff_fields.mpr ⟨hrsv, hopc, rfl⟩, rfl⟩

/-- A row of the map selects exactly the words of its mnemonic. -/
theorem OpcodeRow.selects_iff {r : OpcodeRow} (hr : r ∈ opcodeMap) {w : Word} :
    r.selects w = true ↔ ∃ i, decode w = .ok i ∧ i.mnemonic = r.mnemonic := by
  rw [OpcodeRow.selects, beq_iff_eq]
  simp only [opcodeMap, List.cons_append, List.nil_append, List.mem_cons, List.not_mem_nil, or_false] at hr
  obtain rfl | rfl | rfl | rfl | rfl | rfl := hr
  · exact (exists_decode_iff_of_ne_pad (i := .init) nofun).symm
  · exact (exists_decode_iff_of_ne_pad (i := .absorb) nofun).symm
  · exact exists_decode_pad_iff.symm
  · exact (exists_decode_iff_of_ne_pad (i := .padnull) nofun).symm
  · exact (exists_decode_iff_of_ne_pad (i := .extract) nofun).symm
  · exact (exists_decode_iff_of_ne_pad (i := .clear) nofun).symm

/-- At most one row selects a word: the rows differ in their mnemonics. -/
theorem OpcodeRow.eq_of_selects {r r' : OpcodeRow} (hr : r ∈ opcodeMap) (hr' : r' ∈ opcodeMap) {w : Word}
    (h : r.selects w = true) (h' : r'.selects w = true) : r = r' := by
  obtain ⟨i, hi, hm⟩ := (selects_iff hr).mp h
  obtain ⟨j, hj, hm'⟩ := (selects_iff hr').mp h'
  obtain rfl : i = j := Except.ok.inj (hi.symm.trans hj)
  have hrows : ∀ r ∈ opcodeMap, ∀ r' ∈ opcodeMap, r.mnemonic = r'.mnemonic → r = r' := by decide
  exact hrows r hr r' hr' (hm.symm.trans hm')

theorem decode_pad_of_toNat {w : Word} {len : Fin 64} (h : w.toNat = 0x00000003 + len.val * 0x100) :
    decode w = .ok (.pad len) :=
  decode_eq_ok_iff.mpr (BitVec.eq_of_toNat_eq (h.trans (encode_toNat (.pad len)).symm))

/-- Settles O2, row by row. -/
theorem decoderFollowsTheOpcodeMap : Obligations.DecoderFollowsTheOpcodeMap := fun _ =>
  ⟨exists_decode_iff_of_ne_pad (i := .init) nofun, exists_decode_iff_of_ne_pad (i := .absorb) nofun,
   exists_decode_pad_iff, exists_decode_iff_of_ne_pad (i := .padnull) nofun,
   exists_decode_iff_of_ne_pad (i := .extract) nofun, exists_decode_iff_of_ne_pad (i := .clear) nofun,
   fun _ => decode_pad_of_toNat, fun _ hr _ hr' => OpcodeRow.eq_of_selects hr hr'⟩

/-! ## Illegal words (R86), and the 69 legal ones (R85) -/

theorem rsvField_toNat (w : Word) : (rsvField w).toNat = w.toNat / 2 ^ 14 := by
  have hw := w.isLt
  simp only [rsvField, BitVec.extractLsb'_toNat, Nat.shiftRight_eq_div_pow]
  omega

theorem opcField_toNat (w : Word) : (opcField w).toNat = w.toNat % 2 ^ 8 := by
  simp [opcField, BitVec.extractLsb'_toNat]

theorem lenBits_toNat (w : Word) : (lenBits w).toNat = w.toNat / 2 ^ 8 % 2 ^ 6 := by
  simp [lenBits, BitVec.extractLsb'_toNat, Nat.shiftRight_eq_div_pow]

/-- Every OPC from 1 to 6 is some command's, with LEN = 0. -/
theorem exists_opcode_eq {k : BitVec 8} (h1 : 1 ≤ k.toNat) (h6 : k.toNat ≤ 6) :
    ∃ i : Instr, i.opcode = k ∧ i.lenField = 0 := by
  have hall : ∀ k : BitVec 8, 1 ≤ k.toNat → k.toNat ≤ 6 →
      ∃ i ∈ [Instr.init, .absorb, .pad 0, .padnull, .extract, .clear], i.opcode = k ∧ i.lenField = 0 := by decide
  obtain ⟨i, -, hi⟩ := hall k h1 h6
  exact ⟨i, hi⟩

theorem Instr.opcode_range (i : Instr) : 1 ≤ i.opcode.toNat ∧ i.opcode.toNat ≤ 6 := by
  cases i <;> simp [Instr.opcode]

theorem Instr.lenField_of_opcode_ne {i : Instr} (h : i.opcode ≠ 0x03) : i.lenField = 0 := by
  cases i with
  | pad len => exact absurd rfl h
  | _ => rfl

theorem exists_decode_iff {w : Word} : (∃ i, decode w = .ok i) ↔
    rsvField w = 0 ∧ (1 ≤ (opcField w).toNat ∧ (opcField w).toNat ≤ 6) ∧ (opcField w = 0x03 ∨ lenBits w = 0) := by
  simp only [decode_eq_ok_iff_fields]
  constructor
  · rintro ⟨i, hrsv, hopc, hlen⟩
    rw [hopc, hlen]
    exact ⟨hrsv, i.opcode_range, Decidable.or_iff_not_imp_left.mpr Instr.lenField_of_opcode_ne⟩
  · rintro ⟨hrsv, ⟨h1, h6⟩, hpad | hlen⟩
    · exact ⟨.pad (lenBits w).toFin, hrsv, hpad, rfl⟩
    · obtain ⟨i, hopc, hzero⟩ := exists_opcode_eq h1 h6
      exact ⟨i, hrsv, hopc.symm, hlen.trans hzero.symm⟩

theorem exists_error_iff {w : Word} : (∃ e, decode w = .error e) ↔ ¬ ∃ i, decode w = .ok i := by
  cases decode w <;> simp

theorem exists_error_iff_toNat {w : Word} : (∃ e, decode w = .error e) ↔
    w.toNat / 2 ^ 14 ≠ 0 ∨ w.toNat % 2 ^ 8 = 0 ∨ 7 ≤ w.toNat % 2 ^ 8 ∨
      (w.toNat % 2 ^ 8 ≠ 3 ∧ w.toNat / 2 ^ 8 % 2 ^ 6 ≠ 0) := by
  rw [exists_error_iff, exists_decode_iff, ← BitVec.toNat_inj, ← BitVec.toNat_inj, ← BitVec.toNat_inj, rsvField_toNat,
    opcField_toNat, lenBits_toNat]
  simp only [BitVec.ofNat_eq_ofNat, BitVec.toNat_ofNat]
  omega

/-- Settles O3: the illegal words by their fields, and the step by what the CMD write of one of them raises. -/
theorem illegalWordsRaiseIllegalCommand : Obligations.IllegalWordsRaiseIllegalCommand := by
  refine fun w => ⟨exists_error_iff_toNat, fun s rest hin hf hb ⟨e, hdec⟩ => ?_⟩
  have hstep : step s = .next (raiseFault .illegalCommand (cmdWrite w) { s with inputs := rest }) := by
    rw [step_access hin, access_cmdWrite (s := { s with inputs := rest }) hf hb, hdec]
  exact ⟨_, hstep, rfl, raiseFault_faultEntered .illegalCommand (cmdWrite w) (setInputs_sameBlock s rest)⟩

/-- `Cmd` of R85 written out. -/
def allInstrs : List Instr := [.init, .absorb, .padnull, .extract, .clear] ++ (List.finRange 64).map .pad

theorem mem_allInstrs (i : Instr) : i ∈ allInstrs := by
  cases i <;> simp [allInstrs]

theorem nodup_map {α β : Type} {f : α → β} (hf : Function.Injective f) {l : List α} (hl : l.Nodup) :
    (l.map f).Nodup :=
  List.pairwise_map.mpr (hl.imp fun hne h => hne (hf h))

theorem allInstrs_nodup : allInstrs.Nodup := by
  have hpads : ((List.finRange 64).map Instr.pad).Nodup :=
    nodup_map (fun _ _ h => Instr.pad.inj h) (List.nodup_finRange 64)
  exact List.nodup_append.mpr ⟨by decide, hpads, by simp⟩

/-- Settles O4: the words are the encodings of the 69 commands. -/
theorem exactlySixtyNineWordsDecode : Obligations.ExactlySixtyNineWordsDecode := by
  refine ⟨allInstrs.map encode, nodup_map encode_injective allInstrs_nodup, by simp [allInstrs], fun w => ?_⟩
  simp only [List.mem_map, decode_eq_ok_iff, mem_allInstrs, true_and, @eq_comm _ w]

/-- Settles O5, by running the decoder on each word. -/
theorem writtenOutWordsDecode : Obligations.WrittenOutWordsDecode :=
  ⟨rfl, rfl, rfl, rfl, rfl, rfl, rfl, rfl, rfl, rfl⟩

/-! ## Assembler lines (R89) -/

/-- The line that assembles to a command. -/
def Instr.asmLine : Instr → AsmLine
  | .pad len => ⟨.pad, [len.val]⟩
  | i => ⟨i.mnemonic, []⟩

theorem AsmLine.assemble_asmLine (i : Instr) : i.asmLine.assemble = some i := by
  cases i <;> simp [Instr.asmLine, AsmLine.assemble, Instr.mnemonic]

theorem AsmLine.assemble_eq_some {l : AsmLine} {i : Instr} : l.assemble = some i ↔ l = i.asmLine := by
  refine ⟨fun h => ?_, fun h => h ▸ assemble_asmLine i⟩
  obtain ⟨m, ops⟩ := l
  simp only [AsmLine.assemble] at h
  split at h
  case h_3 n =>
    split at h
    · cases h
      rfl
    · cases h
  case h_7 => cases h
  all_goals cases h; rfl

theorem AsmLine.exists_asmLine_iff {l : AsmLine} : (∃ i : Instr, l = i.asmLine) ↔
    (l.mnemonic = .pad ∧ ∃ n, n < 64 ∧ l.operands = [n]) ∨ (l.mnemonic ≠ .pad ∧ l.operands = []) := by
  obtain ⟨m, ops⟩ := l
  constructor
  · rintro ⟨i, hi⟩
    cases i with
    | pad len => cases hi; exact .inl ⟨rfl, len.val, len.isLt, rfl⟩
    | _ => cases hi; exact .inr ⟨nofun, rfl⟩
  · rintro (⟨rfl, n, hn, rfl⟩ | ⟨hm, rfl⟩)
    · exact ⟨.pad ⟨n, hn⟩, rfl⟩
    · cases m with
      | init => exact ⟨.init, rfl⟩
      | absorb => exact ⟨.absorb, rfl⟩
      | pad => exact absurd rfl hm
      | padnull => exact ⟨.padnull, rfl⟩
      | extract => exact ⟨.extract, rfl⟩
      | clear => exact ⟨.clear, rfl⟩

theorem AsmLine.wellFormed_iff {l : AsmLine} : l.wellFormed = true ↔
    (l.mnemonic = .pad ∧ ∃ n, n < 64 ∧ l.operands = [n]) ∨ (l.mnemonic ≠ .pad ∧ l.operands = []) := by
  obtain ⟨m, ops⟩ := l
  cases m with
  | pad =>
    match ops with
    | [] | [n] | _ :: _ :: _ => simp [AsmLine.wellFormed, Mnemonic.arity]
  | _ => cases ops <;> simp [AsmLine.wellFormed, Mnemonic.arity]

/-- Only PAD's line has an operand, and the command's word carries it as LEN. -/
theorem Instr.encode_toNat_of_operands {i : Instr} {n : Nat} (h : i.asmLine.operands = [n]) :
    (encode i).toNat = 3 + n * 0x100 := by
  cases i <;> cases h
  exact encode_toNat _

theorem Instr.asmLine_mnemonic (i : Instr) : i.asmLine.mnemonic = i.mnemonic := by cases i <;> rfl

/-- Settles O6: the lines that assemble are those of the commands. -/
theorem assemblerAcceptsExactlyTheWellFormedLines : Obligations.AssemblerAcceptsExactlyTheWellFormedLines := by
  intro l
  simp only [AsmLine.assemble_eq_some, AsmLine.exists_asmLine_iff, AsmLine.wellFormed_iff, true_and]
  rintro i rfl
  exact ⟨i.asmLine_mnemonic.symm, fun n => Instr.encode_toNat_of_operands⟩

end Sys2Proof

namespace Sys2Proof.Machine

theorem loadBlk_append (off : Nat) (xs ys : List Byte) :
    loadBlk off (xs ++ ys) = loadBlk off xs ++ loadBlk (off + xs.length) ys := by
  induction xs generalizing off with
  | nil => rfl
  | cons x xs ih => simp [loadBlk, ih, Nat.add_assoc, Nat.add_comm 1]

/-- Settles O49: the accesses of joined lines are the joined accesses. -/
theorem chunkedLoadsAreOneLoad : Obligations.ChunkedLoadsAreOneLoad := fun off xs ys => by
  rw [loadBlk_append, lineInputs, List.filterMap_append]
  rfl

end Sys2Proof.Machine

/-! ## The core's turn on an accepted command, and polls of STATUS (R92, R241) -/

namespace Sys2Proof.Machine

/-- The block with other inputs waiting and another reply on the port. -/
def State.withPort (s : State) (es : List Input) (r : Reply) : State := { s with inputs := es, reply := r }

theorem State.withPort_sameBlock (s : State) (es : List Input) (r : Reply) : SameBlock s (s.withPort es r) := by
  constructor <;> rfl

/-- Bit 0 of STATUS is BUSY (R38). -/
theorem status_busy (s : State) : s.status.getLsbD 0 = s.busy := by
  simp only [State.status, BitVec.getLsbD_setWidth, BitVec.getLsbD_append]
  simp

theorem run_succ {s t : State} (h : step s = .next t) (k : Nat) :
    Host.Core.run core (k + 1) s = Host.Core.run core k t := by
  have hstep : core.step s = .next t := h
  simp only [Host.Core.run, hstep]

theorem step_poll {s : State} {rest : List Input} (h : s.inputs = .access statusRead :: rest) :
    step s = .next (s.withPort rest (.word s.status)) :=
  (step_access h).trans (access_readStatus 0 _)

/-- Polls of STATUS change nothing but the reply. -/
theorem run_polls (polls k : Nat) (rest : List Input) (s : State) (r : Reply) :
    ∃ r', Host.Core.run core (k + polls) (s.withPort (List.replicate polls (.access statusRead) ++ rest) r) =
      Host.Core.run core k (s.withPort rest r') := by
  induction polls generalizing r with
  | zero => exact ⟨r, rfl⟩
  | succ n ih =>
    obtain ⟨r', hr⟩ := ih (.word s.status)
    exact ⟨r', (run_succ (step_poll rfl) (k + n)).trans hr⟩

theorem coreTurn_withPort {s : State} {i : Instr} (hb : s.busy = true) (hf : s.fault = false)
    (hp : s.pending = some i) (es : List Input) (r : Reply) :
    step (s.withPort (.core :: es) r) = exec i (s.withPort es r) :=
  (step_core (.inr ⟨es, rfl⟩)).trans (coreTurn_of_pending (s := s.withPort es r) hb hf hp)

/-- With the invariant a pending command waits in a busy, unfaulted block, and is performed (R208). -/
theorem State.Inv.exec_pending {s : State} {i : Instr} (h : s.Inv) (hp : s.pending = some i) :
    s.busy = true ∧ s.fault = false ∧ ∃ t, exec i s = .next t := by
  have hb : s.busy = true := by simp [h.busyIffPending, hp]
  have hf : s.fault = false := Bool.eq_false_iff.mpr fun hf => by simp [h.faultedIdle hf] at hb
  exact ⟨hb, hf, exec_busy_of_accepted hb (h.pendingAccepted i hp) h.hashUndefinedIff.mp⟩

/-- Settles O47: the polls leave the block as it is, and the core's turn performs the command in it. -/
theorem polledCommandIsPerformed : Obligations.PolledCommandIsPerformed := by
  intro s i polls hinv hp
  obtain ⟨hb, hf, u, hu⟩ := hinv.exec_pending hp
  obtain ⟨r, hpolls⟩ := run_polls polls 2 [.core, .access statusRead] s s.reply
  obtain ⟨t, ht, hut⟩ := (s.withPort_sameBlock [.access statusRead] r).exec_busy hb hu
  obtain ⟨hfree, -, hfault, -, -, -, -, -, hin, -⟩ :=
    (exec_next_of_busy (s := s.withPort [.access statusRead] r) hb ht).frame
  refine ⟨t.withPort [] (.word t.status), u, ?_, hu, hut.trans (t.withPort_sameBlock _ _), hfree, hfault.trans hf, rfl,
    t.status, rfl, (status_busy t).trans hfree⟩
  calc Host.Core.run core (polls + 2) (s.withPort _ s.reply)
      = Host.Core.run core 2 (s.withPort [.core, .access statusRead] r) := by rw [Nat.add_comm]; exact hpolls
    _ = Host.Core.run core 1 t := run_succ ((coreTurn_withPort hb hf hp _ r).trans ht) 1
    _ = .next (t.withPort [] (.word t.status)) := run_succ (step_poll hin) 0

end Sys2Proof.Machine

/-! ## Turns of a host at a place in its script -/

namespace Sys2Proof.Machine

/-- The host that has the lines `pre` behind it and the lines `post` before it. -/
def hostBetween (pre post : List Line) (vars : List (HostVar × Word)) : HostAgent := ⟨pre ++ post, pre.length, vars⟩

theorem System.run_append {as : List Agent} {y z : System} (h : System.run as y = .next z) (bs : List Agent) :
    System.run (as ++ bs) y = System.run bs z := by
  induction as generalizing y with
  | nil => cases h; rfl
  | cons a as ih =>
    simp only [List.cons_append, System.run] at h ⊢
    split at h
    · exact ih h
    · cases h
    · cases h

theorem System.run_host {y z : System} (h : y.hostTurn = .next z) (as : List Agent) :
    System.run (.host :: as) y = System.run as z := by
  simp only [System.run, h]

theorem System.run_core {y z : System} (h : y.coreTurn = .next z) (as : List Agent) :
    System.run (.core :: as) y = System.run as z := by
  simp only [System.run, h]

theorem System.coreTurn_of_pending {g : HostAgent} {s t : State} {i : Instr} (hb : s.busy = true)
    (hf : s.fault = false) (hp : s.pending = some i) (h : exec i s = .next t) :
    System.coreTurn ⟨g, s⟩ = .next ⟨g, t⟩ := by
  have hstep : step { s with inputs := .core :: s.inputs } = .next t :=
    (coreTurn_withPort hb hf hp s.inputs s.reply).trans h
  simp only [System.coreTurn, hstep]

/-- A label that no earlier line carries is found where it stands. -/
theorem labelAt_append {l : Nat} {pre : List Line} (h : .label l ∉ pre) (post : List Line) :
    labelAt l (pre ++ .label l :: post) = pre.length := by
  induction pre with
  | nil => simp [labelAt]
  | cons line pre ih =>
    simp only [List.mem_cons, not_or] at h
    cases line with
    | label k =>
      have hk : k ≠ l := fun hk => h.1 (hk ▸ rfl)
      simp [labelAt, hk, ih h.2]
    | _ => simp [labelAt, ih h.2]

section Turn
variable {pre post : List Line} {line : Line} {vars : List (HostVar × Word)} {s t : State}

theorem currentLine : (pre ++ line :: post)[pre.length]? = some line := by simp

theorem hostTurn_access {acc : HostAccess} (hacc : line.hostAccess = some acc) (h : access acc s = .next t) :
    System.hostTurn ⟨hostBetween pre (line :: post) vars, s⟩ =
      .next ⟨(hostBetween pre (line :: post) vars).advance line.target t.reply, t⟩ := by
  have hstep : step { s with inputs := .access acc :: s.inputs } = .next t := (step_access rfl).trans h
  simp only [System.hostTurn, hostBetween, currentLine, hacc, hstep]

/-- A line without a variable is left behind. -/
theorem hostTurn_write {acc : HostAccess} (hacc : line.hostAccess = some acc) (hx : line.target = none)
    (h : access acc s = .next t) :
    System.hostTurn ⟨hostBetween pre (line :: post) vars, s⟩ = .next ⟨hostBetween (pre ++ [line]) post vars, t⟩ := by
  rw [hostTurn_access hacc h, hx]
  simp [HostAgent.advance, hostBetween]

/-- A line with a variable assigns it the value of the reply. -/
theorem hostTurn_read {acc : HostAccess} {x : HostVar} {v : Word} (hacc : line.hostAccess = some acc)
    (hx : line.target = some x) (h : access acc s = .next t) (hv : t.reply.value = some v) :
    System.hostTurn ⟨hostBetween pre (line :: post) vars, s⟩ =
      .next ⟨hostBetween (pre ++ [line]) post ((x, v) :: vars), t⟩ := by
  rw [hostTurn_access hacc h, hx]
  simp [HostAgent.advance, hv, hostBetween]

theorem hostTurn_label {l : Nat} :
    System.hostTurn ⟨hostBetween pre (.label l :: post) vars, s⟩ =
      .next ⟨hostBetween (pre ++ [.label l]) post vars, s⟩ := by
  simp [System.hostTurn, hostBetween, Line.hostAccess]

/-- A condition that holds sends the host to its label. -/
theorem hostTurn_ifGoto_taken {x : HostVar} {bit l : Nat} {value : Bool} {before after : List Line}
    (h : (lookupVar x vars).map (·.getLsbD bit) = some value) (hl : .label l ∉ before)
    (hscript : pre ++ .ifGoto x bit value l :: post = before ++ .label l :: after) :
    System.hostTurn ⟨hostBetween pre (.ifGoto x bit value l :: post) vars, s⟩ =
      .next ⟨hostBetween before (.label l :: after) vars, s⟩ := by
  simp only [System.hostTurn, hostBetween, currentLine, Line.hostAccess, h, if_true]
  rw [hscript, labelAt_append hl]

theorem hostTurn_ifGoto_passed {x : HostVar} {bit l : Nat} {value : Bool}
    (h : (lookupVar x vars).map (·.getLsbD bit) ≠ some value) :
    System.hostTurn ⟨hostBetween pre (.ifGoto x bit value l :: post) vars, s⟩ =
      .next ⟨hostBetween (pre ++ [.ifGoto x bit value l]) post vars, s⟩ := by
  simp [System.hostTurn, hostBetween, Line.hostAccess, h]

end Turn

/-! ### WAIT (R92) -/

/-- The host reads STATUS into its variable. -/
theorem hostTurn_readStatus {pre post : List Line} {vars : List (HostVar × Word)} {s : State} :
    System.hostTurn ⟨hostBetween pre (.rd32 0x04 .status :: post) vars, s⟩ =
      .next ⟨hostBetween (pre ++ [.rd32 0x04 .status]) post ((.status, s.status) :: vars), answer (.word s.status) s⟩ :=
  hostTurn_read rfl rfl (access_readStatus 0 s) rfl

section Wait
variable {l : Nat} {pre : List Line} (hl : .label l ∉ pre) (post : List Line) (vars : List (HostVar × Word))
  {s : State}
include hl

/-- A round of WAIT that reads BUSY = 1 goes back to its label. -/
theorem run_wait_busy (hb : s.busy = true) :
    System.run [.host, .host, .host] ⟨hostBetween pre (wait l ++ post) vars, s⟩ =
      .next ⟨hostBetween pre (wait l ++ post) ((.status, s.status) :: vars), answer (.word s.status) s⟩ := by
  have hbit : (lookupVar .status ((.status, s.status) :: vars)).map (·.getLsbD 0) = some true := by
    simp only [lookupVar, if_true, Option.map_some, status_busy, hb]
  simp only [wait, List.cons_append, List.nil_append]
  rw [System.run_host hostTurn_label, System.run_host hostTurn_readStatus,
    System.run_host (hostTurn_ifGoto_taken hbit hl (after := .rd32 0x04 .status :: .ifGoto .status 0 true l :: post)
      (by simp)), System.run]

omit hl in
/-- A round of WAIT that reads BUSY = 0 ends it. -/
theorem run_wait_free (hb : s.busy = false) :
    System.run [.host, .host, .host] ⟨hostBetween pre (wait l ++ post) vars, s⟩ =
      .next ⟨hostBetween (pre ++ wait l) post ((.status, s.status) :: vars), answer (.word s.status) s⟩ := by
  have hbit : (lookupVar .status ((.status, s.status) :: vars)).map (·.getLsbD 0) ≠ some true := by
    simp only [lookupVar, if_true, Option.map_some, status_busy, hb]
    decide
  simp only [wait, List.cons_append, List.nil_append]
  rw [System.run_host hostTurn_label, System.run_host hostTurn_readStatus,
    System.run_host (hostTurn_ifGoto_passed hbit)]
  simp [System.run, hostBetween]

end Wait

end Sys2Proof.Machine

/-! ## Pieces of a script -/

namespace Sys2Proof.Machine

/-- No label of `ys` stands in `xs`. -/
def LabelsApart (xs ys : List Line) : Prop := ∀ l, .label l ∈ ys → .label l ∉ xs

/-- The digest variables after `d` has been read into them. -/
def DigestsRead (d : Nat → Option Word) (vars vars' : List (HostVar × Word)) : Prop :=
  ∀ j, lookupVar (.digest j) vars' = (d j).or (lookupVar (.digest j) vars)

/-- In the interleaving `order` a host runs the lines `seg` from their first line to behind their last one, wherever
they stand in a script; the block, if it equals `s` before them, equals `t` after them, and `d` has been read into the
digest variables. -/
def Segment (seg : List Line) (order : List Agent) (s t : State) (d : Nat → Option Word) : Prop :=
  ∀ pre post vars s', LabelsApart pre seg → SameBlock s s' → ∃ vars' t',
    System.run order ⟨hostBetween pre (seg ++ post) vars, s'⟩ = .next ⟨hostBetween (pre ++ seg) post vars', t'⟩ ∧
    SameBlock t t' ∧ DigestsRead d vars vars'

/-- No digest byte is read. -/
def noDigest : Nat → Option Word := fun _ => none

theorem digestsRead_nothing (vars : List (HostVar × Word)) : DigestsRead noDigest vars vars := fun _ => rfl

theorem digestsRead_status (v : Word) {vars vars' : List (HostVar × Word)} (h : DigestsRead noDigest vars vars') :
    DigestsRead noDigest vars ((.status, v) :: vars') := fun j => by
  simpa [lookupVar] using h j

theorem Segment.congr {seg : List Line} {order : List Agent} {s t : State} {d e : Nat → Option Word}
    (h : Segment seg order s t d) (hd : ∀ j, d j = e j) : Segment seg order s t e := funext hd ▸ h

theorem Segment.append {xs ys : List Line} {as bs : List Agent} {s t u : State} {d e : Nat → Option Word}
    (hx : Segment xs as s t d) (hy : Segment ys bs t u e) (hl : LabelsApart xs ys) :
    Segment (xs ++ ys) (as ++ bs) s u fun j => (e j).or (d j) := by
  intro pre post vars s' hpre hs
  obtain ⟨vars', t', hrun, ht, hd⟩ := hx pre (ys ++ post) vars s' (fun l h => hpre l (by simp [h])) hs
  obtain ⟨vars'', u', hrun', hu, he⟩ := hy (pre ++ xs) post vars' t'
    (fun l h => by simp [hl l h, hpre l (List.mem_append_right _ h)]) ht
  refine ⟨vars'', u', ?_, hu, fun j => by rw [he j, hd j, Option.or_assoc]⟩
  rw [List.append_assoc, System.run_append hrun, hrun', List.append_assoc]

theorem Segment.append_quiet {xs ys : List Line} {as bs : List Agent} {s t u : State} {d : Nat → Option Word}
    (hx : Segment xs as s t d) (hy : Segment ys bs t u noDigest) (hl : LabelsApart xs ys) :
    Segment (xs ++ ys) (as ++ bs) s u d := hx.append hy hl

theorem Segment.quiet_append {xs ys : List Line} {as bs : List Agent} {s t u : State} {e : Nat → Option Word}
    (hx : Segment xs as s t noDigest) (hy : Segment ys bs t u e) (hl : LabelsApart xs ys) :
    Segment (xs ++ ys) (as ++ bs) s u e := (hx.append hy hl).congr fun _ => Option.or_none

theorem Segment.nil (s : State) : Segment [] [] s s noDigest := fun pre post vars s' _ hs =>
  ⟨vars, s', by simp [System.run], hs, digestsRead_nothing vars⟩

/-- A line that writes the port, by what its access does to the block. -/
theorem Segment.write {line : Line} {acc : HostAccess} {s t : State} (hacc : line.hostAccess = some acc)
    (hx : line.target = none) (h : ∀ s', SameBlock s s' → ∃ t', access acc s' = .next t' ∧ SameBlock t t') :
    Segment [line] [.host] s t noDigest := by
  intro pre post vars s' _ hs
  obtain ⟨t', haccess, ht⟩ := h s' hs
  exact ⟨vars, t', System.run_host (hostTurn_write hacc hx haccess) [], ht, digestsRead_nothing vars⟩

/-! ### Commands -/

/-- Issued in the idle block `s`, the command is accepted, and performed it leaves `t`. -/
structure Commanded (s : State) (i : Instr) (t : State) : Prop where
  idle : s.idle
  accepted : issueFault i s = none
  performed : exec i (accept i s) = .next t

theorem accept_sameBlock {s s' : State} (i : Instr) (h : SameBlock s s') : SameBlock (accept i s) (accept i s') :=
  { h with busy := rfl, pending := rfl }

/-- The CMD write of a command that passes its checks (R203, R204). -/
theorem access_cmdWrite_accepted {s : State} {i : Instr} (hs : s.idle) (hi : issueFault i s = none) :
    access (cmdWrite (encode i)) s = .next (accept i (answer .silent s)) := by
  obtain ⟨hb, hf⟩ := hs
  have hchecks : issueFault i (answer .silent s) = none := (issueFault_congr i rfl rfl rfl rfl rfl).trans hi
  have hissue : issue i (answer .silent s) = accept i (answer .silent s) := by rw [issue, hchecks]
  rw [access_cmdWrite hf hb, decode_encode, ← hissue]
  exact exec_of_not_busy i (s := answer .silent s) hb

/-- Any number of rounds of WAIT that read BUSY = 1. -/
theorem run_wait_polls {l : Nat} {pre : List Line} (hl : .label l ∉ pre) (post : List Line) (polls : Nat)
    (vars : List (HostVar × Word)) {s : State} (hb : s.busy = true) :
    ∃ vars' s', System.run (List.replicate polls [Agent.host, .host, .host]).flatten
        ⟨hostBetween pre (wait l ++ post) vars, s⟩ = .next ⟨hostBetween pre (wait l ++ post) vars', s'⟩ ∧
      SameBlock s s' ∧ DigestsRead noDigest vars vars' := by
  induction polls generalizing vars s with
  | zero => exact ⟨vars, s, rfl, .refl s, digestsRead_nothing vars⟩
  | succ n ih =>
    obtain ⟨vars', s', hrun, hs, hd⟩ := ih ((.status, s.status) :: vars) (s := answer (.word s.status) s) hb
    refine ⟨vars', s', ?_, (answer_sameBlock _ s).trans hs, fun j => ?_⟩
    · rw [List.replicate_succ, List.flatten_cons, System.run_append (run_wait_busy hl post vars hb), hrun]
    · rw [hd j]
      simp [lookupVar]

/-- A bare command, however often it is polled (R92, R241). -/
theorem Commanded.segment {s t : State} {i : Instr} (h : Commanded s i t) (l polls : Nat) :
    Segment (command l i) (commandOrder polls) s t noDigest := by
  obtain ⟨hidle, hi, hperf⟩ := h
  intro pre post vars s' hpre hs
  have hl : .label l ∉ pre ++ [.issue i] := by
    simpa using hpre l (by simp [command, wait])
  have hidle' : s'.idle := ⟨hs.busy.trans hidle.1, hs.fault.trans hidle.2⟩
  have hi' : issueFault i s' = none := (issueFault_congr i hs.phase hs.mem hs.mlenLo hs.mlenHi hs.param).trans hi
  obtain ⟨vars', a, hpolls, ha, hd⟩ := run_wait_polls hl post polls vars (s := accept i (answer .silent s')) rfl
  have hacc : SameBlock (accept i s) a := (accept_sameBlock i (hs.trans (answer_sameBlock _ s'))).trans ha
  obtain ⟨t', hexec, ht⟩ := hacc.exec_busy rfl hperf
  have hfree : t'.busy = false := (exec_next_of_busy hacc.busy hexec).frame.1
  have hcore := System.coreTurn_of_pending (g := hostBetween (pre ++ [.issue i]) (wait l ++ post) vars') hacc.busy
    (hacc.fault.trans hidle.2) hacc.pending hexec
  have hissue := hostTurn_write (line := .issue i) (pre := pre) (post := wait l ++ post) (vars := vars) rfl rfl
    (access_cmdWrite_accepted hidle' hi')
  refine ⟨(.status, t'.status) :: vars', answer (.word t'.status) t', ?_, ht.trans (answer_sameBlock _ t'),
    digestsRead_status _ hd⟩
  calc System.run (commandOrder polls) ⟨hostBetween pre (command l i ++ post) vars, s'⟩
      = System.run ((List.replicate polls [Agent.host, .host, .host]).flatten ++ [.core, .host, .host, .host])
          ⟨hostBetween (pre ++ [.issue i]) (wait l ++ post) vars, accept i (answer .silent s')⟩ :=
        by rw [commandOrder, command, List.cons_append, System.run_host hissue]
    _ = System.run [.host, .host, .host] ⟨hostBetween (pre ++ [.issue i]) (wait l ++ post) vars', t'⟩ := by
        rw [System.run_append hpolls, System.run_core hcore]
    _ = _ := by rw [run_wait_free post vars' hfree, List.append_assoc]; rfl

@[simp] theorem label_mem_command {l k : Nat} {i : Instr} : .label l ∈ command k i ↔ l = k := by
  simp [command, wait]

/-- A bare command behind lines that do not use its label. -/
theorem Segment.command {xs : List Line} {as : List Agent} {s t u : State} {d : Nat → Option Word} {i : Instr}
    (hx : Segment xs as s t d) (h : Commanded t i u) (polls : Nat → Nat) (l : Nat) (hl : .label l ∉ xs) :
    Segment (xs ++ Machine.command l i) (as ++ commandOrder (polls l)) s u d :=
  hx.append_quiet (h.segment l (polls l)) fun k hk => by rwa [label_mem_command.mp hk]

/-- A run of a whole script ends behind its last line. -/
theorem Segment.run_script {script : List Line} {order : List Agent} {s t : State} {d : Nat → Option Word}
    (h : Segment script order s t d) : ∃ y, System.run order ⟨⟨script, 0, []⟩, s⟩ = .next y ∧
      y.host.position = script.length ∧ SameBlock t y.block ∧ ∀ j, lookupVar (.digest j) y.host.vars = d j := by
  obtain ⟨vars, t', hrun, ht, hd⟩ := h [] [] [] s (fun _ _ => List.not_mem_nil) (.refl s)
  rw [List.append_nil] at hrun
  exact ⟨_, hrun, rfl, ht, fun j => (hd j).trans (Option.or_none)⟩

/-- Settles O48: a bare command is a segment of its own. -/
theorem waitEndsAfterTheCoreStep : Obligations.WaitEndsAfterTheCoreStep := by
  intro s i polls l hinv hidle hi
  obtain ⟨t, hperf⟩ := exec_busy_of_accepted (s := accept i s) rfl hi hinv.hashUndefinedIff.mp
  obtain ⟨y, hrun, hpos, ht, -⟩ := (Commanded.segment ⟨hidle, hi, hperf⟩ l polls).run_script
  obtain ⟨hfree, -, hfault, -⟩ := (exec_next_of_busy (s := accept i s) rfl hperf).frame
  exact ⟨y, t, hrun, hpos, hperf, ht, ht.busy.trans hfree, ht.fault.trans (hfault.trans hidle.2)⟩

end Sys2Proof.Machine

/-! ## The padded message, block by block (42_padding.md R160, R162) -/

namespace Sys2Proof.Machine

theorem cutBlocks_succ (q : Nat) (m : List Byte) :
    cutBlocks (q + 1) m = m.take 64 :: cutBlocks q (m.drop 64) := rfl

@[simp] theorem cutBlocks_length (q : Nat) (m : List Byte) : (cutBlocks q m).length = q := by
  induction q generalizing m with
  | zero => rfl
  | succ q ih => simp [cutBlocks, ih]

theorem length_of_mem_cutBlocks {q : Nat} {m b : List Byte} (hq : 64 * q ≤ m.length) (hb : b ∈ cutBlocks q m) :
    b.length = 64 := by
  induction q generalizing m with
  | zero => simp [cutBlocks] at hb
  | succ q ih =>
    obtain rfl | hb := List.mem_cons.mp hb
    · rw [List.length_take]; omega
    · exact ih (by rw [List.length_drop]; omega) hb

/-- What stands behind `q` full blocks does not change them, and the next `k` are cut behind them. -/
theorem cutBlocks_add {q : Nat} {m : List Byte} (hq : 64 * q ≤ m.length) (k : Nat) (rest : List Byte) :
    cutBlocks (q + k) (m ++ rest) = cutBlocks q m ++ cutBlocks k (m.drop (64 * q) ++ rest) := by
  induction q generalizing m with
  | zero => simp [cutBlocks]
  | succ q ih =>
    have hdrop : (m.drop 64).drop (64 * q) = m.drop (64 * (q + 1)) := by rw [List.drop_drop]; congr 1; omega
    rw [Nat.add_right_comm, cutBlocks_succ, cutBlocks_succ, List.take_append_of_le_length (by omega),
      List.drop_append_of_le_length (by omega), ih (by rw [List.length_drop]; omega), hdrop]
    rfl

theorem cutBlocks_one {b : List Byte} (hb : b.length = 64) : cutBlocks 1 b = [b] := by
  simp [cutBlocks, List.take_of_length_le (Nat.le_of_eq hb)]

theorem absorbBlocks_append (h : Words8) (xs ys : List (List Byte)) :
    absorbBlocks h (xs ++ ys) = absorbBlocks (absorbBlocks h xs) ys := by
  induction xs generalizing h with
  | nil => rfl
  | cons x xs ih => simp only [List.cons_append, absorbBlocks, ih]

section Padding
variable (m : List Byte)

/-- The state words after the full blocks of the message. -/
def fullBlocksHash : Words8 := absorbBlocks ivWords (cutBlocks (m.length / 64) m)

/-- The bytes behind the last full block. -/
def messageTail : List Byte := m.drop (64 * (m.length / 64))

theorem messageTail_length : (messageTail m).length = m.length % 64 := by
  rw [messageTail, List.length_drop]
  omega

/-- What the spec appends to the message is what the pads write behind its tail. -/
theorem paddedMessage_of_shapeA (hr : m.length % 64 ≤ 55) :
    paddedMessage m = m ++ padShapeA (m.length % 64) (bitCount (BitVec.ofNat 64 m.length)) := by
  rw [paddedMessage, padShapeA, show zeroCount m.length = 55 - m.length % 64 by unfold zeroCount; omega]

theorem paddedMessage_of_shapeB (hr : 55 < m.length % 64) : paddedMessage m =
    m ++ (padShapeB (m.length % 64) ++ padShapeC (bitCount (BitVec.ofNat 64 m.length))) := by
  have hzeros : zeroCount m.length = (63 - m.length % 64) + 56 := by unfold zeroCount; omega
  rw [paddedMessage, padShapeB, padShapeC, hzeros, ← List.replicate_append_replicate]
  simp

/-- With the tail's pads `pads` of `k` blocks, the digest's words are those of the full blocks and these `k`. -/
theorem sha256Words_of_pads {k : Nat} {pads : List Byte} (hpad : paddedMessage m = m ++ pads)
    (hlen : m.length % 64 + pads.length = 64 * k) :
    sha256Words m = absorbBlocks (fullBlocksHash m) (cutBlocks k (messageTail m ++ pads)) := by
  have hcount : (m ++ pads).length / 64 = m.length / 64 + k := by rw [List.length_append]; omega
  rw [sha256Words, hpad, hcount, cutBlocks_add (by omega), absorbBlocks_append]
  rfl

theorem sha256Words_of_shapeA (hr : m.length % 64 ≤ 55) : sha256Words m = compress (fullBlocksHash m)
    (messageTail m ++ padShapeA (m.length % 64) (bitCount (BitVec.ofNat 64 m.length))) := by
  have hlen := padShapeA_length (bitCount (BitVec.ofNat 64 m.length)) hr
  rw [sha256Words_of_pads m (k := 1) (paddedMessage_of_shapeA m hr) (by omega),
    cutBlocks_one (by rw [List.length_append, messageTail_length]; omega)]
  rfl

theorem sha256Words_of_shapeB (hr : 55 < m.length % 64) : sha256Words m =
    compress (compress (fullBlocksHash m) (messageTail m ++ padShapeB (m.length % 64)))
      (padShapeC (bitCount (BitVec.ofNat 64 m.length))) := by
  have hlen := padShapeB_length (len := m.length % 64) (by omega)
  have hblock : (messageTail m ++ padShapeB (m.length % 64)).length = 64 := by
    rw [List.length_append, messageTail_length]; omega
  rw [sha256Words_of_pads m (k := 2) (paddedMessage_of_shapeB m hr)
      (by rw [List.length_append, padShapeC_length]; omega), ← List.append_assoc,
    cutBlocks_add (q := 1) (k := 1) (by omega), cutBlocks_one hblock, List.drop_of_length_le (by omega),
    List.nil_append, cutBlocks_one (padShapeC_length _)]
  rfl

end Padding

end Sys2Proof.Machine

/-! ## A block that hashes a message, command by command (43_digest.md R180) -/

namespace Sys2Proof.Machine

theorem Memory.writeBytes_append (m : Memory) (a : Nat) (xs ys : List Byte) :
    m.writeBytes a (xs ++ ys) = (m.writeBytes a xs).writeBytes (a + xs.length) ys := by
  induction xs generalizing m a with
  | nil => simp
  | cons x xs ih => simp [Memory.writeBytes_cons, ih, Nat.add_assoc, Nat.add_comm 1]

/-- Writing all of BLK makes these bytes the block, whatever it held. -/
theorem block_of_writeBytes {s : State} {m : Memory} {bs : List Byte} (hm : s.mem = m.writeBytes blkBase bs)
    (hl : bs.length = 64) : s.block = some bs :=
  block_eq_some.mpr ⟨hl, fun i hi => by rw [hm]; exact Memory.read_writeBytes_inside rfl (by omega)⟩

/-- The block with bytes loaded from BLK[off] on. -/
def State.loaded (off : Nat) (bs : List Byte) (s : State) : State :=
  { s with mem := s.mem.writeBytes (blkBase + off) bs }

/-- The block with both halves of MLEN written. -/
def State.withLength (n : BitVec 64) (s : State) : State :=
  { s with mlenLo := some (n.extractLsb' 0 32), mlenHi := some (n.extractLsb' 32 32) }

theorem withLength_mlen (n : BitVec 64) (s : State) : (s.withLength n).mlen = some n := by
  refine mlen_eq_some.mpr ⟨_, _, rfl, rfl, BitVec.eq_of_toNat_eq ?_⟩
  have hn := n.isLt
  simp only [BitVec.extractLsb'_toNat, BitVec.toNat_ofNat, Nat.shiftRight_eq_div_pow]
  omega

/-- The idle, unfaulted block of a message of `n` bytes, in phase `p` and with the state words `w`. -/
structure Hashing (n : Nat) (p : Phase) (w : Words8) (s : State) : Prop where
  idle : s.idle
  phase : s.phase = p
  hash : s.h = some w
  mlen : s.mlen = some (BitVec.ofNat 64 n)
  fits : lengthExceeds (BitVec.ofNat 64 n) s.maxMsgBytes = false

theorem lengthExceeds_of_lt {n limit : Nat} (hn : n < limit) : lengthExceeds (BitVec.ofNat 64 n) limit = false := by
  simp only [lengthExceeds, BitVec.toNat_ofNat, decide_eq_false_iff_not]
  omega

section Hashing
variable {n : Nat} {p : Phase} {w : Words8} {s : State}

theorem Hashing.loaded (h : Hashing n p w s) (off : Nat) (bs : List Byte) : Hashing n p w (s.loaded off bs) :=
  { h with }

theorem commanded_init (hs : s.idle) (hm : s.mlen = some (BitVec.ofNat 64 n))
    (hn : lengthExceeds (BitVec.ofNat 64 n) s.maxMsgBytes = false) :
    ∃ t, Commanded s .init t ∧ Hashing n .absorbing ivWords t :=
  ⟨performInit (accept .init s), ⟨hs, rfl, rfl⟩, ⟨⟨rfl, hs.2⟩, rfl, rfl, hm, hn⟩⟩

theorem Hashing.commanded_absorb (h : Hashing n p w s) {q : Phase} (hq : p.afterAbsorb = some q) {bs : List Byte}
    (hb : s.block = some bs) : ∃ t, Commanded s .absorb t ∧ Hashing n q (compress w bs) t := by
  have hallows : s.phase.allows .absorb = true := by
    rw [h.phase, Phase.allows, Phase.next, hq]; rfl
  have hchecks : issueFault .absorb s = none :=
    issueFault_eq_none.mpr ⟨hallows, operandFault_absorb_eq_none.mpr (by rw [hb]; rfl)⟩
  have hperf : exec .absorb (accept .absorb s) =
      .next (finish { accept .absorb s with h := some (compress w bs), phase := q }) := by
    have hb' : (accept .absorb s).block = some bs := hb
    rw [exec_absorb_of_busy rfl]
    simp only [performAbsorb, accept_h, h.hash, hb', accept_phase, h.phase, hq]
  exact ⟨_, ⟨h.idle, hchecks, hperf⟩, ⟨⟨rfl, h.idle.2⟩, rfl, rfl, h.mlen, h.fits⟩⟩

theorem Hashing.pad_accepted (h : Hashing n .absorbing w s) (len : Fin 64) : issueFault (.pad len) s = none :=
  issueFault_eq_none.mpr ⟨by rw [h.phase]; rfl, operandFault_pad_eq_none.mpr ⟨_, h.mlen, h.fits⟩⟩

/-- PAD, Shape A, behind the loaded tail of the message: the final block. -/
theorem Hashing.commanded_padA (h : Hashing n .absorbing w s) {len : Fin 64} (hlen : len.val ≤ 55) {bs : List Byte}
    (hbs : bs.length = len.val) : ∃ t, Commanded (s.loaded 0 bs) (.pad len) t ∧ Hashing n .paddedFinal w t ∧
      t.complete = true ∧ t.block = some (bs ++ padShapeA len.val (bitCount (BitVec.ofNat 64 n))) := by
  have hload := h.loaded 0 bs
  have hm : (accept (.pad len) (s.loaded 0 bs)).mlen = some (BitVec.ofNat 64 n) := hload.mlen
  have hperf := exec_pad_of_busy (s := accept (.pad len) (s.loaded 0 bs)) len rfl
  simp only [performPad, hm, show shapeA len = true from decide_eq_true hlen, if_true] at hperf
  refine ⟨_, ⟨hload.idle, hload.pad_accepted len, hperf⟩, ⟨⟨rfl, h.idle.2⟩, rfl, h.hash, h.mlen, h.fits⟩, rfl, ?_⟩
  refine block_of_writeBytes (m := s.mem) ?_ (by rw [List.length_append, padShapeA_length _ hlen]; omega)
  rw [Memory.writeBytes_append, hbs]
  rfl

/-- PAD, Shape B, behind the loaded tail of the message: the block before the last. -/
theorem Hashing.commanded_padB (h : Hashing n .absorbing w s) {len : Fin 64} (hlen : 55 < len.val) {bs : List Byte}
    (hbs : bs.length = len.val) : ∃ t, Commanded (s.loaded 0 bs) (.pad len) t ∧ Hashing n .paddedMore w t ∧
      t.complete = false ∧ t.block = some (bs ++ padShapeB len.val) := by
  have hload := h.loaded 0 bs
  have hm : (accept (.pad len) (s.loaded 0 bs)).mlen = some (BitVec.ofNat 64 n) := hload.mlen
  have hperf := exec_pad_of_busy (s := accept (.pad len) (s.loaded 0 bs)) len rfl
  have hshape : shapeA len = false := decide_eq_false (by omega)
  simp only [performPad, hm, hshape, Bool.false_eq_true, if_false] at hperf
  refine ⟨_, ⟨hload.idle, hload.pad_accepted len, hperf⟩, ⟨⟨rfl, h.idle.2⟩, rfl, h.hash, h.mlen, h.fits⟩, rfl, ?_⟩
  refine block_of_writeBytes (m := s.mem) ?_ (by rw [List.length_append, padShapeB_length (by omega)]; omega)
  rw [Memory.writeBytes_append, hbs]
  rfl

theorem Hashing.commanded_padnull (h : Hashing n .needNull w s) : ∃ t, Commanded s .padnull t ∧
    Hashing n .paddedFinal w t ∧ t.block = some (padShapeC (bitCount (BitVec.ofNat 64 n))) := by
  have hchecks : issueFault .padnull s = none :=
    issueFault_eq_none.mpr ⟨by rw [h.phase]; rfl, operandFault_padnull_eq_none.mpr ⟨_, h.mlen, h.fits⟩⟩
  have hm : (accept .padnull s).mlen = some (BitVec.ofNat 64 n) := h.mlen
  have hperf := exec_padnull_of_busy (s := accept .padnull s) rfl
  simp only [performPadnull, hm] at hperf
  exact ⟨_, ⟨h.idle, hchecks, hperf⟩, ⟨⟨rfl, h.idle.2⟩, rfl, h.hash, h.mlen, h.fits⟩,
    block_of_writeBytes (m := s.mem) rfl (padShapeC_length _)⟩

theorem Hashing.commanded_extract (h : Hashing n .done w s) : ∃ t, Commanded s .extract t ∧ Hashing n .done w t ∧
    t.digValid = true ∧ ∀ i, i < 32 → t.mem.read (digBase + i) = w.digest[i]? := by
  have hchecks : issueFault .extract s = none := issueFault_eq_none.mpr ⟨by rw [h.phase]; rfl, rfl⟩
  have hperf := exec_extract_of_busy (s := accept .extract s) rfl
  simp only [performExtract, accept_h, h.hash] at hperf
  exact ⟨_, ⟨h.idle, hchecks, hperf⟩, ⟨⟨rfl, h.idle.2⟩, h.phase, rfl, h.mlen, h.fits⟩, rfl, fun i hi =>
    Memory.read_writeBytes_inside rfl (by rw [digest_length]; exact hi)⟩

theorem Hashing.commanded_clear (h : Hashing n p w s) : ∃ t, Commanded s .clear t ∧ Hashing n .cleared zeroWords t :=
  ⟨performClear (accept .clear s), ⟨h.idle, rfl, rfl⟩,
    ⟨⟨rfl, h.idle.2⟩, rfl, rfl, h.mlen, h.fits⟩⟩

end Hashing

end Sys2Proof.Machine

/-! ## The lines of COMPUTE without a command (R91, R93, R180) -/

namespace Sys2Proof.Machine

theorem idle_congr {s s' : State} (h : SameBlock s s') (hs : s.idle) : s'.idle :=
  ⟨h.busy.trans hs.1, h.fault.trans hs.2⟩

@[simp] theorem label_notMem_setLen (n : BitVec 64) (l : Nat) : .label l ∉ setLen n := by simp [setLen]

/-- SETLEN (R91). -/
theorem segment_setLen {s : State} (hs : s.idle) (n : BitVec 64) :
    Segment (setLen n) [.host, .host] s (s.withLength n) noDigest := by
  have hlo : Segment [.wr32 0x10 (n.extractLsb' 0 32)] [.host] s { s with mlenLo := some (n.extractLsb' 0 32) }
      noDigest := by
    refine .write rfl rfl fun s' h => ⟨_, access_of_free (idle_congr h hs).2 rfl (idle_congr h hs).1, ?_⟩
    exact { h with mlenLo := rfl }
  have hhi : Segment [.wr32 0x14 (n.extractLsb' 32 32)] [.host] { s with mlenLo := some (n.extractLsb' 0 32) }
      (s.withLength n) noDigest := by
    refine .write rfl rfl fun s' h => ⟨_, access_of_free (idle_congr h hs).2 rfl (idle_congr h hs).1, ?_⟩
    exact { h with mlenHi := rfl }
  exact hlo.append_quiet hhi (by simp [LabelsApart])

/-- A write of a byte of BLK (R174). -/
theorem access_writeBlk {s : State} (hs : s.idle) (hp : s.phase.holdsPaddedBlock = false) {off : Nat} (hoff : off < 64)
    (b : Byte) : access ⟨BitVec.ofNat 8 (blkBase + off), .w8, .write, b.zeroExtend 32⟩ s =
      .next (answer .silent { s with mem := s.mem.write (blkBase + off) b }) := by
  have hnat : (BitVec.ofNat 8 (blkBase + off)).toNat = blkBase + off := by
    simp only [BitVec.toNat_ofNat, blkBase]; omega
  have hrange : 0x40 ≤ blkBase + off ∧ blkBase + off ≤ 0x7F := by simp only [blkBase]; omega
  have hb : (b.zeroExtend 32).extractLsb' 0 8 = b := BitVec.eq_of_toNat_eq (by simpa using b.isLt)
  rw [access_of_free hs.2 (legal_iff.mpr (by simp [hnat, hrange])) hs.1]
  simp only [performAccess, HostAccess.op, HostAccess.byteData, hnat, hb, hp, Bool.false_eq_true, if_false]

theorem LabelsApart.of_no_label {xs ys : List Line} (h : ∀ l, .label l ∉ ys) : LabelsApart xs ys :=
  fun l hl => absurd hl (h l)

@[simp] theorem label_notMem_loadBlk (off : Nat) (bs : List Byte) (l : Nat) : .label l ∉ loadBlk off bs := by
  induction bs generalizing off with
  | nil => simp [loadBlk]
  | cons b bs ih => simp [loadBlk, ih]

/-- LOADBLK (R93). -/
theorem segment_loadBlk {s : State} (hs : s.idle) (hp : s.phase.holdsPaddedBlock = false) {off : Nat} {bs : List Byte}
    (hfits : off + bs.length ≤ 64) :
    Segment (loadBlk off bs) (List.replicate bs.length .host) s (s.loaded off bs) noDigest := by
  induction bs generalizing off s with
  | nil =>
    have hsame : s.loaded off [] = s := by simp [State.loaded]
    rw [hsame]
    exact .nil s
  | cons b bs ih =>
    rw [List.length_cons] at hfits
    have hfirst : Segment [.wr8 (BitVec.ofNat 8 (blkBase + off)) b] [.host] s (s.loaded off [b]) noDigest := by
      refine .write rfl rfl fun s' h =>
        ⟨_, access_writeBlk (idle_congr h hs) (by rw [h.phase]; exact hp) (by omega) b, ?_⟩
      exact { h with mem := by simp [State.loaded, Memory.writeBytes_cons, h.mem] }
    have hrest := hfirst.append_quiet (ih (s := s.loaded off [b]) (off := off + 1) hs hp (by omega))
      (.of_no_label (label_notMem_loadBlk _ _))
    have hall : (s.loaded off [b]).loaded (off + 1) bs = s.loaded off (b :: bs) := by
      simp [State.loaded, Memory.writeBytes_cons, Nat.add_assoc]
    rw [hall] at hrest
    exact hrest

/-- A read of a byte of DIG (R175). -/
theorem access_readDig {s : State} (hs : s.idle) (hd : s.digValid = true) {i : Nat} (hi : i < 32) {b : Byte}
    (hb : s.mem.read (digBase + i) = some b) :
    access ⟨BitVec.ofNat 8 (digBase + i), .w8, .read, 0⟩ s = .next (answer (.byte b) s) := by
  have hnat : (BitVec.ofNat 8 (digBase + i)).toNat = digBase + i := by
    simp only [BitVec.toNat_ofNat, digBase]; omega
  have hrange : 0x80 ≤ digBase + i ∧ digBase + i ≤ 0x9F := by simp only [digBase]; omega
  rw [access_of_free hs.2 (legal_iff.mpr (by simp [hnat, hrange])) hs.1]
  have hdig : ¬ digBase + i < digBase := by omega
  simp only [performAccess, HostAccess.op, hnat, hdig, if_false, hd, if_true, hb, Option.map_some, readOrFault]

/-- A line of READDIG reads its byte of DIG into its variable. -/
theorem segment_readDigest {s : State} (hs : s.idle) (hd : s.digValid = true) {i : Nat} (hi : i < 32) {b : Byte}
    (hb : s.mem.read (digBase + i) = some b) :
    Segment [.rd8 (BitVec.ofNat 8 (digBase + i)) (.digest i)] [.host] s s
      fun j => if j = i then some (b.zeroExtend 32) else none := by
  intro pre post vars s' _ h
  have hread := access_readDig (idle_congr h hs) (h.digValid.trans hd) hi (by rw [h.mem]; exact hb)
  refine ⟨(.digest i, b.zeroExtend 32) :: vars, answer (.byte b) s',
    System.run_host (hostTurn_read rfl rfl hread rfl) [], h.trans (answer_sameBlock _ s'), fun j => ?_⟩
  by_cases hj : j = i <;> simp [lookupVar, hj]

@[simp] theorem label_notMem_readDig (l : Nat) : .label l ∉ readDig := by simp [readDig]

/-- READDIG, its first `k` lines (R93). -/
theorem segment_readDig {s : State} (hs : s.idle) (hd : s.digValid = true) {bs : List Byte}
    (hread : ∀ i, i < 32 → s.mem.read (digBase + i) = bs[i]?) (hbs : bs.length = 32) {k : Nat} (hk : k ≤ 32) :
    Segment ((List.range k).map fun i => .rd8 (BitVec.ofNat 8 (digBase + i)) (.digest i)) (List.replicate k .host) s s
      fun j => if j < k then bs[j]?.map (·.zeroExtend 32) else none := by
  induction k with
  | zero => exact .nil s
  | succ k ih =>
    obtain ⟨b, hb⟩ : ∃ b, bs[k]? = some b := ⟨_, List.getElem?_eq_getElem (by omega)⟩
    have hall := (ih (by omega)).append (segment_readDigest hs hd (by omega) ((hread k (by omega)).trans hb))
      (.of_no_label (by simp))
    rw [List.range_succ, List.map_append, List.replicate_succ']
    refine hall.congr fun j => ?_
    obtain hj | rfl | hj := Nat.lt_trichotomy j k
    · simp [hj, show j ≠ k by omega, show j < k + 1 by omega]
    · simp [hb]
    · simp [show ¬ j < k by omega, show j ≠ k by omega, show ¬ j < k + 1 by omega]

/-! ### The branch on COMPLETE, and the pads (R180, 42_padding.md R162) -/

/-- The lines of COMPUTE that absorb the block before the last where the tail needs one more. -/
def completeBranch (q : Nat) : List Line :=
  rdStatus .status ++ [.ifGoto .status 1 true (q + 7)] ++ (command (q + 2) .absorb ++ command (q + 3) .padnull) ++
    [.label (q + 7)]

def completeBranchOrder (polls : Nat → Nat) (q : Nat) (taken : Bool) : List Agent :=
  [.host, .host] ++ (if taken then [] else commandOrder (polls (q + 2)) ++ commandOrder (polls (q + 3))) ++ [.host]

@[simp] theorem label_mem_completeBranch {l q : Nat} :
    .label l ∈ completeBranch q ↔ l = q + 2 ∨ l = q + 3 ∨ l = q + 7 := by
  simp [completeBranch, rdStatus]

theorem lookup_complete {s : State} {vars : List (HostVar × Word)} :
    (lookupVar .status ((.status, s.status) :: vars)).map (·.getLsbD 1) = some s.complete := by
  simp only [lookupVar, if_true, Option.map_some, status_complete]

/-- COMPLETE = 1: the host goes on behind the label. -/
theorem segment_jumpIfComplete {s : State} (hc : s.complete = true) {l : Nat} {body : List Line}
    (hbody : .label l ∉ body) :
    Segment (rdStatus .status ++ [.ifGoto .status 1 true l] ++ body ++ [.label l]) [.host, .host, .host] s s
      noDigest := by
  intro pre post vars s' hpre hs
  have hl : .label l ∉ pre ++ (rdStatus .status ++ [.ifGoto .status 1 true l] ++ body) := by
    simpa [rdStatus, hbody] using hpre l (by simp)
  have hbit : (lookupVar .status ((.status, s'.status) :: vars)).map (·.getLsbD 1) = some true := by
    rw [lookup_complete, hs.complete, hc]
  refine ⟨(.status, s'.status) :: vars, answer (.word s'.status) s', ?_, hs.trans (answer_sameBlock _ s'),
    digestsRead_status _ (digestsRead_nothing vars)⟩
  simp only [rdStatus, List.cons_append, List.nil_append, List.append_assoc] at hl ⊢
  rw [System.run_host hostTurn_readStatus, System.run_host (hostTurn_ifGoto_taken hbit hl (after := post) (by simp)),
    System.run_host hostTurn_label]
  simp [System.run]

/-- COMPLETE = 0: the host goes on with the next line. -/
theorem segment_readComplete {s : State} (hc : s.complete = false) (l : Nat) :
    Segment (rdStatus .status ++ [.ifGoto .status 1 true l]) [.host, .host] s s noDigest := by
  intro pre post vars s' _ hs
  have hbit : (lookupVar .status ((.status, s'.status) :: vars)).map (·.getLsbD 1) ≠ some true := by
    rw [lookup_complete, hs.complete, hc]
    decide
  refine ⟨(.status, s'.status) :: vars, answer (.word s'.status) s', ?_, hs.trans (answer_sameBlock _ s'),
    digestsRead_status _ (digestsRead_nothing vars)⟩
  simp only [rdStatus, List.cons_append, List.nil_append]
  rw [System.run_host hostTurn_readStatus, System.run_host (hostTurn_ifGoto_passed hbit), List.append_assoc]
  rfl

theorem segment_label (l : Nat) (s : State) : Segment [.label l] [.host] s s noDigest :=
  fun _ _ vars s' _ hs => ⟨vars, s', System.run_host hostTurn_label [], hs, digestsRead_nothing vars⟩

theorem segment_completeBranch_taken {s : State} (hc : s.complete = true) (polls : Nat → Nat) (q : Nat) :
    Segment (completeBranch q) (completeBranchOrder polls q true) s s noDigest :=
  segment_jumpIfComplete hc (by simp)

/-- COMPLETE = 0: the host absorbs the block and has the length block written. -/
theorem segment_completeBranch_passed {s t u : State} (hc : s.complete = false) (ha : Commanded s .absorb t)
    (hn : Commanded t .padnull u) (polls : Nat → Nat) (q : Nat) :
    Segment (completeBranch q) (completeBranchOrder polls q false) s u noDigest := by
  have hread := segment_readComplete hc (q + 7)
  have hbody := ((Segment.nil s).command ha polls (q + 2) (by simp)).command hn polls (q + 3) (by simp)
  exact (hread.append_quiet hbody (by simp [LabelsApart, rdStatus])).append_quiet (segment_label (q + 7) u)
    (by simp [LabelsApart, rdStatus])

end Sys2Proof.Machine

/-! ## The script COMPUTE (R180) -/

namespace Sys2Proof.Machine

/-- The loop over the blocks `bs` uses the labels from `k` on, one for each block. -/
@[simp] theorem label_mem_computeBlocks {l k : Nat} {bs : List (List Byte)} :
    .label l ∈ computeBlocks k bs ↔ k ≤ l ∧ l < k + bs.length := by
  induction bs generalizing k with
  | nil => simp [computeBlocks]
  | cons b bs ih =>
    simp only [computeBlocks, List.mem_append, label_notMem_loadBlk, label_mem_command, ih, false_or, List.length_cons]
    omega

/-- COMPUTE's loop absorbs the full blocks. -/
theorem Hashing.segment_computeBlocks {n : Nat} {w : Words8} {s : State} (h : Hashing n .absorbing w s)
    (polls : Nat → Nat) (k : Nat) {bs : List (List Byte)} (hbs : ∀ b ∈ bs, b.length = 64) :
    ∃ t, Segment (computeBlocks k bs) (computeBlockOrder polls k bs.length) s t noDigest ∧
      Hashing n .absorbing (absorbBlocks w bs) t := by
  induction bs generalizing k w s with
  | nil => exact ⟨s, .nil s, h⟩
  | cons b bs ih =>
    have hlen : b.length = 64 := hbs b (by simp)
    have hload := segment_loadBlk (off := 0) (bs := b) h.idle (by rw [h.phase]; rfl) (by omega)
    obtain ⟨t, habs, ht⟩ := (h.loaded 0 b).commanded_absorb rfl (block_of_writeBytes (m := s.mem) rfl hlen)
    obtain ⟨u, hrest, hu⟩ := ih ht (k + 1) fun b' hb' => hbs b' (by simp [hb'])
    rw [hlen] at hload
    have hfirst := hload.command habs polls k (by simp)
    refine ⟨u, hfirst.append_quiet hrest ?_, by rw [absorbBlocks]; exact hu⟩
    simp [LabelsApart]
    omega

/-- The tail of the message is padded, and where the pads take two blocks the first of them is absorbed: what is left
is the last block of the padded message. -/
theorem Hashing.segment_pads {m : List Byte} {s : State} (h : Hashing m.length .absorbing (fullBlocksHash m) s)
    (polls : Nat → Nat) (q : Nat) : ∃ t u w b, Commanded (s.loaded 0 (messageTail m)) (.pad (tailLength m)) t ∧
      Segment (completeBranch q) (completeBranchOrder polls q (shapeA (tailLength m))) t u noDigest ∧
      Hashing m.length .paddedFinal w u ∧ u.block = some b ∧ compress w b = sha256Words m := by
  have htail : (messageTail m).length = (tailLength m).val := messageTail_length m
  by_cases hr : m.length % 64 ≤ 55
  · obtain ⟨t, hpad, ht, hcomplete, hblock⟩ := h.commanded_padA (len := tailLength m) hr htail
    have hshape : shapeA (tailLength m) = true := decide_eq_true hr
    rw [hshape]
    exact ⟨t, t, _, _, hpad, segment_completeBranch_taken hcomplete polls q, ht, hblock,
      (sha256Words_of_shapeA m hr).symm⟩
  · have hr : 55 < m.length % 64 := by omega
    obtain ⟨t, hpad, ht, hcomplete, hblock⟩ := h.commanded_padB (len := tailLength m) hr htail
    obtain ⟨u, habs, hu⟩ := ht.commanded_absorb rfl hblock
    obtain ⟨v, hnull, hv, hlast⟩ := hu.commanded_padnull
    have hshape : shapeA (tailLength m) = false := decide_eq_false (by simpa [tailLength] using hr)
    rw [hshape]
    exact ⟨t, v, _, _, hpad, segment_completeBranch_passed hcomplete habs hnull polls q, hv, hlast,
      (sha256Words_of_shapeB m hr).symm⟩

/-- COMPUTE as one list of its pieces. -/
theorem compute_eq (m : List Byte) : compute m =
    setLen (BitVec.ofNat 64 m.length) ++ command 0 .init ++ computeBlocks 1 (cutBlocks (m.length / 64) m) ++
      loadBlk 0 (messageTail m) ++ command (m.length / 64 + 1) (.pad (tailLength m)) ++
      completeBranch (m.length / 64) ++ command (m.length / 64 + 4) .absorb ++ command (m.length / 64 + 5) .extract ++
      readDig ++ command (m.length / 64 + 6) .clear := by
  simp only [compute, completeBranch, messageTail, List.append_assoc]

theorem computeOrder_eq (polls : Nat → Nat) (m : List Byte) : computeOrder polls m =
    [.host, .host] ++ commandOrder (polls 0) ++ computeBlockOrder polls 1 (m.length / 64) ++
      List.replicate (m.length % 64) .host ++ commandOrder (polls (m.length / 64 + 1)) ++
      completeBranchOrder polls (m.length / 64) (shapeA (tailLength m)) ++ commandOrder (polls (m.length / 64 + 4)) ++
      commandOrder (polls (m.length / 64 + 5)) ++ List.replicate 32 .host ++
      commandOrder (polls (m.length / 64 + 6)) := by
  simp only [computeOrder, completeBranchOrder, List.append_assoc]

/-- Up to its loop, COMPUTE absorbs the full blocks of the message. -/
theorem segment_compute_fullBlocks {m : List Byte} {s : State} (hs : s.idle) (hm : m.length < s.maxMsgBytes)
    (polls : Nat → Nat) : ∃ t, Segment
      (setLen (BitVec.ofNat 64 m.length) ++ command 0 .init ++ computeBlocks 1 (cutBlocks (m.length / 64) m))
      ([.host, .host] ++ commandOrder (polls 0) ++ computeBlockOrder polls 1 (m.length / 64)) s t noDigest ∧
      Hashing m.length .absorbing (fullBlocksHash m) t := by
  obtain ⟨t, hinit, ht⟩ := commanded_init (s := s.withLength (BitVec.ofNat 64 m.length)) hs (withLength_mlen _ s)
    (lengthExceeds_of_lt hm)
  obtain ⟨u, hblocks, hu⟩ := ht.segment_computeBlocks polls 1 (bs := cutBlocks (m.length / 64) m)
    fun _ => length_of_mem_cutBlocks (by omega)
  rw [cutBlocks_length] at hblocks
  have hset := (segment_setLen hs (BitVec.ofNat 64 m.length)).command hinit polls 0 (by simp)
  exact ⟨u, hset.append_quiet hblocks (by simp [LabelsApart]; omega), hu⟩

/-- COMPUTE leaves the block cleared and reads the digest into d[0..31]. -/
theorem segment_compute {m : List Byte} {s : State} (hs : s.idle) (hm : m.length < s.maxMsgBytes)
    (polls : Nat → Nat) : ∃ t, Segment (compute m) (computeOrder polls m) s t
      (fun j => if j < 32 then (sha256 m)[j]?.map (·.zeroExtend 32) else none) ∧
      Hashing m.length .cleared zeroWords t := by
  obtain ⟨s1, hfull, h1⟩ := segment_compute_fullBlocks hs hm polls
  have hload := segment_loadBlk (off := 0) (bs := messageTail m) h1.idle (by rw [h1.phase]; rfl)
    (by rw [messageTail_length]; omega)
  obtain ⟨s2, s3, w, b, hpad, hbranch, h3, hblock, hdigest⟩ := h1.segment_pads polls (m.length / 64)
  obtain ⟨s4, habsorb, h4⟩ := h3.commanded_absorb rfl hblock
  rw [hdigest] at h4
  obtain ⟨s5, hextract, h5, hvalid, hread⟩ := h4.commanded_extract
  have hdigits := segment_readDig h5.idle hvalid hread (digest_length _) (Nat.le_refl 32)
  obtain ⟨s6, hclear, h6⟩ := h5.commanded_clear
  rw [messageTail_length] at hload
  refine ⟨s6, ?_, h6⟩
  rw [compute_eq, computeOrder_eq]
  have hpadded := (hfull.append_quiet hload (.of_no_label (by simp))).command hpad polls (m.length / 64 + 1)
    (by simp; omega)
  have hbranched := hpadded.append_quiet hbranch (by simp [LabelsApart]; omega)
  have hextracted := (hbranched.command habsorb polls (m.length / 64 + 4) (by simp; omega)).command hextract polls
    (m.length / 64 + 5) (by simp; omega)
  exact (hextracted.quiet_append hdigits (.of_no_label (by simp))).command hclear polls (m.length / 64 + 6)
    (by simp; omega)

/-- Settles O53: the whole script is one segment. -/
theorem computeScriptReturnsTheDigest : Obligations.ComputeScriptReturnsTheDigest := by
  intro s polls m _ hs hm
  obtain ⟨t, hseg, ht⟩ := segment_compute hs hm polls
  obtain ⟨y, hrun, hpos, hy, hvars⟩ := hseg.run_script
  exact ⟨y, hrun, hpos, hy.fault.trans ht.idle.2, hy.phase.trans ht.phase, fun i hi => by rw [hvars i, if_pos hi]⟩

end Sys2Proof.Machine

/-! ## The six word functions, bit by bit (40_primitives.md R104 to R109) -/

namespace Sys2Proof.Machine

/-- R103 bit by bit: the bits from 32 - n on are 0. -/
theorem getLsbD_shr (x : Word) (n i : Nat) :
    (shr x n).getLsbD i = (decide (i + n < 32) && x.getLsbD (i + n)) := by
  rw [shr, BitVec.getLsbD_ushiftRight, Nat.add_comm n i]
  by_cases hin : i + n < 32
  · simp [hin]
  · simp [hin, BitVec.getLsbD_of_ge x (i + n) (by omega)]

/-- The shape of σ0 and σ1: two rotations and a shift. -/
theorem getLsbD_rotr_xor_rotr_xor_shr {a b : Nat} (c : Nat) {i : Nat} (x : Word) (ha : 0 < a ∧ a < 32)
    (hb : 0 < b ∧ b < 32) (hi : i < 32) : (rotr x a ^^^ rotr x b ^^^ shr x c).getLsbD i =
      ((x.getLsbD ((i + a) % 32) ^^ x.getLsbD ((i + b) % 32)) ^^ (decide (i + c < 32) && x.getLsbD (i + c))) := by
  rw [BitVec.getLsbD_xor, BitVec.getLsbD_xor, getLsbD_rotr ha.1 ha.2 hi, getLsbD_rotr hb.1 hb.2 hi, getLsbD_shr]

/-- The shape of Σ0 and Σ1: three rotations. -/
theorem getLsbD_rotr_xor_rotr_xor_rotr {a b c i : Nat} (x : Word) (ha : 0 < a ∧ a < 32) (hb : 0 < b ∧ b < 32)
    (hc : 0 < c ∧ c < 32) (hi : i < 32) : (rotr x a ^^^ rotr x b ^^^ rotr x c).getLsbD i =
      ((x.getLsbD ((i + a) % 32) ^^ x.getLsbD ((i + b) % 32)) ^^ x.getLsbD ((i + c) % 32)) := by
  rw [BitVec.getLsbD_xor, BitVec.getLsbD_xor, getLsbD_rotr ha.1 ha.2 hi, getLsbD_rotr hb.1 hb.2 hi,
    getLsbD_rotr hc.1 hc.2 hi]

/-- Ch chooses: x's bit selects between y's and z's. -/
theorem getLsbD_ch (x y z : Word) {i : Nat} (hi : i < 32) :
    (ch x y z).getLsbD i = if x.getLsbD i = true then y.getLsbD i else z.getLsbD i := by
  rw [ch, BitVec.getLsbD_xor, BitVec.getLsbD_and, BitVec.getLsbD_and, BitVec.getLsbD_not]
  cases x.getLsbD i <;> simp [hi]

/-- Maj is 1 where at least two of the three bits are. -/
theorem getLsbD_maj (x y z : Word) (i : Nat) : (maj x y z).getLsbD i =
    decide (2 ≤ (x.getLsbD i).toNat + (y.getLsbD i).toNat + (z.getLsbD i).toNat) := by
  rw [maj, BitVec.getLsbD_xor, BitVec.getLsbD_xor, BitVec.getLsbD_and, BitVec.getLsbD_and, BitVec.getLsbD_and]
  generalize x.getLsbD i = a, y.getLsbD i = b, z.getLsbD i = c
  revert a b c
  decide

/-- Settles O16: the sigmas by their shape, Ch and Maj by their truth tables. -/
theorem wordFunctionsBitByBit : Obligations.WordFunctionsBitByBit := fun x y z i hi =>
  ⟨getLsbD_rotr_xor_rotr_xor_shr 3 x (by decide) (by decide) hi,
    getLsbD_rotr_xor_rotr_xor_shr 10 x (by decide) (by decide) hi,
    getLsbD_rotr_xor_rotr_xor_rotr x (by decide) (by decide) (by decide) hi,
    getLsbD_rotr_xor_rotr_xor_rotr x (by decide) (by decide) (by decide) hi,
    getLsbD_ch x y z hi, getLsbD_maj x y z i⟩

end Sys2Proof.Machine

/-! ## INIT (41_compression.md R131) -/

namespace Sys2Proof.Machine

theorem exec_init_of_busy {s : State} (hb : s.busy = true) : exec .init s = .next (performInit s) := by
  simp [exec, execInit, hb]

/-- A command that passes its issue checks is accepted (60_exceptions.md R204). -/
theorem issue_of_accepted {i : Instr} {s : State} (h : issueFault i s = none) : issue i s = accept i s := by
  rw [issue, h]

/-- INIT is allowed in every phase (42_padding.md R156) and has no operand (R203). -/
theorem issueFault_init (s : State) : issueFault .init s = none := issueFault_eq_none.mpr ⟨rfl, rfl⟩

/-- Settles O11: the issue half is `accept`, the perform half `performInit`. -/
theorem initLoadsTheInitialValues : Obligations.InitLoadsTheInitialValues := by
  refine fun s => ⟨fun hb => ?_, fun hb => ?_⟩
  · rw [exec_of_not_busy .init hb, issue_of_accepted (issueFault_init s), accept]
  · rw [exec_init_of_busy hb, performInit, finish, ivWords]

end Sys2Proof.Machine

/-! ## The constant tables (40_primitives.md R110, R111) -/

namespace Sys2Proof.Machine

/-- Trial division by every number from 2 up to `n - 1`; it stops at the first divisor. -/
def hasNoDivisor (n : Nat) : Bool := (List.range' 2 (n - 2)).all fun d => n % d != 0

theorem hasNoDivisor_iff {n : Nat} : hasNoDivisor n = true ↔ ∀ d, 2 ≤ d → d < n → n % d ≠ 0 := by
  simp only [hasNoDivisor, List.all_eq_true, List.mem_range'_1, bne_iff_ne]
  exact forall_congr' fun d => ⟨fun h h2 hd => h ⟨h2, by omega⟩, fun h hd => h hd.1 (by omega)⟩

/-- The 64 primes below 312. -/
def firstPrimes : List Nat :=
  [2, 3, 5, 7, 11, 13, 17, 19, 23, 29, 31, 37, 41, 43, 47, 53, 59, 61, 67, 71, 73, 79] ++
  [83, 89, 97, 101, 103, 107, 109, 113, 127, 131, 137, 139, 149, 151, 157, 163, 167, 173, 179, 181, 191, 193] ++
  [197, 199, 211, 223, 227, 229, 233, 239, 241, 251, 257, 263, 269, 271, 277, 281, 283, 293, 307, 311]

theorem firstPrimes_eq_filter : firstPrimes = (List.range 312).filter fun n => 2 ≤ n && hasNoDivisor n := by
  decide +kernel

theorem mem_firstPrimes {n : Nat} : n ∈ firstPrimes ↔ n < 312 ∧ 2 ≤ n ∧ ∀ d, 2 ≤ d → d < n → n % d ≠ 0 := by
  rw [firstPrimes_eq_filter, List.mem_filter, List.mem_range, Bool.and_eq_true, decide_eq_true_iff, hasNoDivisor_iff]

theorem firstPrimes_length : firstPrimes.length = 64 := rfl

theorem firstPrimes_pairwise : firstPrimes.Pairwise (· < ·) := by
  rw [firstPrimes_eq_filter]
  exact List.pairwise_lt_range.filter _

/-- `v` holds the first 32 fractional bits of the k-th root of `p`: behind some integer part `a` it makes the floor of
that root times 2^32. For the primes in question the integer part is at most 6. -/
def IsRootFraction (k p : Nat) (v : Word) : Prop :=
  ∃ a < 7, (a * 2 ^ 32 + v.toNat) ^ k ≤ p * 2 ^ (32 * k) ∧ p * 2 ^ (32 * k) < (a * 2 ^ 32 + v.toNat + 1) ^ k

theorem IsRootFraction.exists_floor {k p : Nat} {v : Word} (h : IsRootFraction k p v) :
    ∃ c, c ^ k ≤ p * 2 ^ (32 * k) ∧ p * 2 ^ (32 * k) < (c + 1) ^ k ∧ v.toNat = c % 2 ^ 32 := by
  obtain ⟨a, -, hle, hlt⟩ := h
  exact ⟨a * 2 ^ 32 + v.toNat, hle, hlt, by have := v.isLt; omega⟩

/-- A table whose entries are root fractions of the primes beside them, entry by entry. -/
theorem exists_floor_of_zip {k t : Nat} {table : List Word}
    (h : ∀ pv ∈ firstPrimes.zip table, IsRootFraction k pv.1 pv.2) (hp : t < 64) (ht : t < table.length) :
    ∃ p v c, firstPrimes[t]? = some p ∧ table[t]? = some v ∧
      c ^ k ≤ p * 2 ^ (32 * k) ∧ p * 2 ^ (32 * k) < (c + 1) ^ k ∧ v.toNat = c % 2 ^ 32 := by
  have hlen : t < firstPrimes.length := firstPrimes_length ▸ hp
  have hmem : (firstPrimes[t], table[t]) ∈ firstPrimes.zip table :=
    List.mem_iff_getElem.mpr ⟨t, by rw [List.length_zip]; omega, List.getElem_zip⟩
  obtain ⟨c, hc⟩ := (h _ hmem).exists_floor
  exact ⟨_, _, c, List.getElem?_eq_getElem hlen, List.getElem?_eq_getElem ht, hc⟩

theorem kTable_isRootFraction : ∀ pv ∈ firstPrimes.zip kTable, IsRootFraction 3 pv.1 pv.2 := by
  unfold IsRootFraction
  decide +kernel

theorem ivWords_isRootFraction : ∀ pv ∈ firstPrimes.zip ivWords.toList, IsRootFraction 2 pv.1 pv.2 := by
  unfold IsRootFraction
  decide +kernel

/-- Settles O17: the primes by trial division, the floors by raising each candidate to its power. -/
theorem constantTablesAreTheRootFractions : Obligations.ConstantTablesAreTheRootFractions :=
  ⟨firstPrimes, firstPrimes_length, firstPrimes_pairwise, fun _ => mem_firstPrimes,
    fun _ ht => exists_floor_of_zip kTable_isRootFraction ht ht,
    fun _ hi => exists_floor_of_zip ivWords_isRootFraction (by omega) hi⟩

end Sys2Proof.Machine

/-! ## The block along a list of inputs -/

namespace Sys2Proof.Machine

theorem run_add {m : Nat} {s t : State} (h : Host.Core.run core m s = .next t) (n : Nat) :
    Host.Core.run core (m + n) s = Host.Core.run core n t := by
  induction m generalizing s with
  | zero => cases h; rw [Nat.zero_add]
  | succ m ih =>
    rw [Nat.add_right_comm]
    simp only [Host.Core.run] at h ⊢
    split at h
    · exact ih h
    · cases h
    · cases h

/-- The inputs `es`, first in the list of those that wait, take every block that equals `s` to one that equals `t`, one
step for each input. -/
def Drives (es : List Input) (s t : State) : Prop :=
  ∀ s' rest, SameBlock s s' → s'.inputs = es ++ rest → ∃ t',
    Host.Core.run core es.length s' = .next t' ∧ SameBlock t t' ∧ t'.inputs = rest

theorem Drives.nil (s : State) : Drives [] s s := fun s' _ hs hin => ⟨s', rfl, hs, hin⟩

theorem Drives.append {es fs : List Input} {s t u : State} (h : Drives es s t) (h' : Drives fs t u) :
    Drives (es ++ fs) s u := by
  intro s' rest hs hin
  obtain ⟨t', hrun, ht, hin'⟩ := h s' (fs ++ rest) hs (by rw [hin, List.append_assoc])
  obtain ⟨u', hrun', hu, hrest⟩ := h' t' rest ht hin'
  exact ⟨u', by rw [List.length_append, run_add hrun, hrun'], hu, hrest⟩

/-- One input, by what it does to the block it is taken from. -/
theorem Drives.single {e : Input} {s t : State}
    (h : ∀ s', SameBlock s s' → ∃ t', handle e s' = .next t' ∧ SameBlock t t' ∧ t'.inputs = s'.inputs) :
    Drives [e] s t := by
  intro s' rest hs hin
  obtain ⟨t', hhandle, ht, hrest⟩ := h (dropInput s') (hs.trans (dropInput_sameBlock s'))
  have hstep : step s' = .next t' := by
    rw [step, turn, hin]
    exact hhandle
  exact ⟨t', run_succ hstep 0, ht, by rw [hrest, dropInput_inputs, hin]; rfl⟩

/-- Inputs each of which leaves the block as it is. -/
theorem Drives.of_forall {es : List Input} {s : State} (h : ∀ e ∈ es, Drives [e] s s) : Drives es s s := by
  induction es with
  | nil => exact .nil s
  | cons e es ih => exact (h e (by simp)).append (ih fun e' he' => h e' (by simp [he']))

/-! ### Accesses -/

theorem AccessDone.inputs {acc : HostAccess} {s t : State} (h : AccessDone acc s t) : t.inputs = s.inputs := by
  cases h <;> rfl

theorem faultedAccess_inputs (acc : HostAccess) (s : State) : (faultedAccess acc s).inputs = s.inputs := by
  unfold faultedAccess
  repeat' split
  all_goals rfl

/-- No access touches the inputs that wait behind it. -/
theorem access_inputs {acc : HostAccess} {s t : State} (h : access acc s = .next t) : t.inputs = s.inputs := by
  obtain ⟨-, rfl⟩ | ⟨-, code, -, s', acc', rfl, hs'⟩ | ⟨-, -, hdone⟩ := access_cases h
  · exact faultedAccess_inputs acc s
  · obtain ⟨-, rfl⟩ | ⟨-, -, -, -, -, rfl⟩ := hs' <;> rfl
  · exact hdone.inputs

theorem Drives.access {acc : HostAccess} {s t : State}
    (h : ∀ s', SameBlock s s' → ∃ t', Machine.access acc s' = .next t' ∧ SameBlock t t') :
    Drives [.access acc] s t := .single fun s' hs => by
  obtain ⟨t', hacc, ht⟩ := h s' hs
  exact ⟨t', hacc, ht, access_inputs hacc⟩

/-- An access that only answers, such as a read. -/
theorem Drives.answered {acc : HostAccess} {s : State}
    (h : ∀ s', SameBlock s s' → ∃ r, Machine.access acc s' = .next (answer r s')) : Drives [.access acc] s s :=
  .access fun s' hs => by
    obtain ⟨r, hacc⟩ := h s' hs
    exact ⟨_, hacc, hs.trans (answer_sameBlock r s')⟩

theorem drives_statusRead (s : State) : Drives [.access statusRead] s s :=
  .answered fun s' _ => ⟨_, access_readStatus 0 s'⟩

/-- A bare command, however often it is polled (R92, R241). -/
theorem Commanded.drives {s t : State} {i : Instr} (h : Commanded s i t) (polls : Nat) :
    Drives (commandInputs polls i) s t := by
  obtain ⟨hidle, hi, hperf⟩ := h
  have hissue : Drives [.access (cmdWrite (encode i))] s (accept i s) := .access fun s' hs => by
    have hi' : issueFault i s' = none := (issueFault_congr i hs.phase hs.mem hs.mlenLo hs.mlenHi hs.param).trans hi
    exact ⟨_, access_cmdWrite_accepted (idle_congr hs hidle) hi', accept_sameBlock i (hs.trans (answer_sameBlock _ s'))⟩
  have hpolls : Drives (List.replicate polls (.access statusRead)) (accept i s) (accept i s) :=
    .of_forall fun e he => List.eq_of_mem_replicate he ▸ drives_statusRead _
  have hcore : Drives [.core] (accept i s) t := .single fun s' hs => by
    obtain ⟨t', hexec, ht⟩ := hs.exec_busy rfl hperf
    obtain ⟨-, -, -, -, -, -, -, -, hin, -⟩ := (exec_next_of_busy hs.busy hexec).frame
    exact ⟨t', (coreTurn_of_pending hs.busy (hs.fault.trans hidle.2) hs.pending).trans hexec, ht, hin⟩
  exact hissue.append (hpolls.append (hcore.append (drives_statusRead t)))

theorem Drives.command {es : List Input} {s t u : State} {i : Instr} (h : Drives es s t) (hc : Commanded t i u)
    (polls : Nat) : Drives (es ++ commandInputs polls i) s u := h.append (hc.drives polls)

/-! ### The lines of COMPUTE without a command (R91, R93) -/

/-- SETLEN (R91). -/
theorem drives_setLen {s : State} (hs : s.idle) (n : BitVec 64) :
    Drives (lineInputs (setLen n)) s (s.withLength n) := by
  have hlo : Drives [.access ⟨0x10, .w32, .write, n.extractLsb' 0 32⟩] s
      { s with mlenLo := some (n.extractLsb' 0 32) } := .access fun s' h =>
    ⟨_, access_of_free (idle_congr h hs).2 rfl (idle_congr h hs).1, { h with mlenLo := rfl }⟩
  have hhi : Drives [.access ⟨0x14, .w32, .write, n.extractLsb' 32 32⟩] { s with mlenLo := some (n.extractLsb' 0 32) }
      (s.withLength n) := .access fun s' h =>
    ⟨_, access_of_free (idle_congr h hs).2 rfl (idle_congr h hs).1, { h with mlenHi := rfl }⟩
  exact hlo.append hhi

/-- LOADBLK (R93). -/
theorem drives_loadBlk {s : State} (hs : s.idle) (hp : s.phase.holdsPaddedBlock = false) {off : Nat} {bs : List Byte}
    (hfits : off + bs.length ≤ 64) : Drives (lineInputs (loadBlk off bs)) s (s.loaded off bs) := by
  induction bs generalizing off s with
  | nil =>
    have hsame : s.loaded off [] = s := by simp [State.loaded]
    rw [hsame]
    exact .nil s
  | cons b bs ih =>
    rw [List.length_cons] at hfits
    have hfirst : Drives [.access ⟨BitVec.ofNat 8 (blkBase + off), .w8, .write, b.zeroExtend 32⟩] s
        (s.loaded off [b]) := .access fun s' h =>
      ⟨_, access_writeBlk (idle_congr h hs) (by rw [h.phase]; exact hp) (by omega) b,
        { h with mem := by simp [State.loaded, Memory.writeBytes_cons, h.mem] }⟩
    have hrest := ih (s := s.loaded off [b]) (off := off + 1) hs hp (by omega)
    have hall : (s.loaded off [b]).loaded (off + 1) bs = s.loaded off (b :: bs) := by
      simp [State.loaded, Memory.writeBytes_cons, Nat.add_assoc]
    rw [hall] at hrest
    exact hfirst.append hrest

/-- READDIG of a digest that stands in DIG (R93). -/
theorem drives_readDig {s : State} (hs : s.idle) (hd : s.digValid = true) {bs : List Byte}
    (hread : ∀ i, i < 32 → s.mem.read (digBase + i) = bs[i]?) (hbs : bs.length = 32) :
    Drives (lineInputs readDig) s s := by
  refine .of_forall fun e he => ?_
  obtain ⟨i, hi, rfl⟩ : ∃ i, i < 32 ∧ .access ⟨BitVec.ofNat 8 (digBase + i), .w8, .read, 0⟩ = e := by
    simpa [lineInputs, readDig, Line.hostAccess] using he
  have hb : s.mem.read (digBase + i) = some bs[i] := (hread i hi).trans (List.getElem?_eq_getElem (by omega))
  exact .answered fun s' h =>
    ⟨_, access_readDig (idle_congr h hs) (h.digValid.trans hd) hi (by rw [h.mem]; exact hb)⟩

/-! ### COMPUTE (R180) -/

/-- COMPUTE's loop absorbs the full blocks. -/
theorem Hashing.drives_computeBlocks {n : Nat} {w : Words8} {s : State} (h : Hashing n .absorbing w s)
    (polls : Nat → Nat) (k : Nat) {bs : List (List Byte)} (hbs : ∀ b ∈ bs, b.length = 64) :
    ∃ t, Drives (computeBlockInputs polls k bs) s t ∧ Hashing n .absorbing (absorbBlocks w bs) t := by
  induction bs generalizing k w s with
  | nil => exact ⟨s, .nil s, h⟩
  | cons b bs ih =>
    have hlen : b.length = 64 := hbs b (by simp)
    have hload := drives_loadBlk (off := 0) (bs := b) h.idle (by rw [h.phase]; rfl) (by omega)
    obtain ⟨t, habs, ht⟩ := (h.loaded 0 b).commanded_absorb rfl (block_of_writeBytes (m := s.mem) rfl hlen)
    obtain ⟨u, hrest, hu⟩ := ih ht (k + 1) fun b' hb' => hbs b' (by simp [hb'])
    rw [computeBlockInputs, absorbBlocks]
    exact ⟨u, (hload.command habs (polls k)).append hrest, hu⟩

/-- What the block sees of COMPUTE between its PAD and its last ABSORB: the read of COMPLETE, and where the host takes
no branch, the commands that absorb the block before the last. -/
def completeBranchInputs (polls : Nat → Nat) (q : Nat) (taken : Bool) : List Input :=
  lineInputs (rdStatus .status) ++
    if taken then [] else commandInputs (polls (q + 2)) .absorb ++ commandInputs (polls (q + 3)) .padnull

/-- The tail of the message is padded, and where the pads take two blocks the first of them is absorbed: what is left
is the last block of the padded message. -/
theorem Hashing.drives_pads {m : List Byte} {s : State} (h : Hashing m.length .absorbing (fullBlocksHash m) s)
    (polls : Nat → Nat) (q : Nat) : ∃ t u w b, Commanded (s.loaded 0 (messageTail m)) (.pad (tailLength m)) t ∧
      Drives (completeBranchInputs polls q (shapeA (tailLength m))) t u ∧
      Hashing m.length .paddedFinal w u ∧ u.block = some b ∧ compress w b = sha256Words m := by
  have htail : (messageTail m).length = (tailLength m).val := messageTail_length m
  by_cases hr : m.length % 64 ≤ 55
  · obtain ⟨t, hpad, ht, -, hblock⟩ := h.commanded_padA (len := tailLength m) hr htail
    have hshape : shapeA (tailLength m) = true := decide_eq_true hr
    rw [hshape]
    exact ⟨t, t, _, _, hpad, (drives_statusRead t).append (.nil t), ht, hblock, (sha256Words_of_shapeA m hr).symm⟩
  · have hr : 55 < m.length % 64 := by omega
    obtain ⟨t, hpad, ht, -, hblock⟩ := h.commanded_padB (len := tailLength m) hr htail
    obtain ⟨u, habs, hu⟩ := ht.commanded_absorb rfl hblock
    obtain ⟨v, hnull, hv, hlast⟩ := hu.commanded_padnull
    have hshape : shapeA (tailLength m) = false := decide_eq_false (by simpa [tailLength] using hr)
    rw [hshape]
    exact ⟨t, v, _, _, hpad, (drives_statusRead t).append ((habs.drives _).command hnull _), hv, hlast,
      (sha256Words_of_shapeB m hr).symm⟩

/-- The accesses of COMPUTE as one list of its pieces. -/
theorem computeInputs_eq (polls : Nat → Nat) (m : List Byte) : computeInputs polls m =
    lineInputs (setLen (BitVec.ofNat 64 m.length)) ++ commandInputs (polls 0) .init ++
      computeBlockInputs polls 1 (cutBlocks (m.length / 64) m) ++ lineInputs (loadBlk 0 (messageTail m)) ++
      commandInputs (polls (m.length / 64 + 1)) (.pad (tailLength m)) ++
      completeBranchInputs polls (m.length / 64) (shapeA (tailLength m)) ++
      commandInputs (polls (m.length / 64 + 4)) .absorb ++ commandInputs (polls (m.length / 64 + 5)) .extract ++
      lineInputs readDig ++ commandInputs (polls (m.length / 64 + 6)) .clear := by
  simp only [computeInputs, completeBranchInputs, messageTail, List.append_assoc]

/-- CLEAR leaves DIG and DIG_VALID as they are (R185). -/
theorem Commanded.clear_keeps_digest {s t : State} (h : Commanded s .clear t) :
    t.digValid = s.digValid ∧ t.mem = s.mem := by
  cases exec_next_of_busy (s := accept .clear s) rfl h.performed
  exact ⟨rfl, rfl⟩

/-- COMPUTE leaves the block cleared, with the digest in DIG. -/
theorem drives_compute {m : List Byte} {s : State} (hs : s.idle) (hm : m.length < s.maxMsgBytes)
    (polls : Nat → Nat) : ∃ t, Drives (computeInputs polls m) s t ∧ Hashing m.length .cleared zeroWords t ∧
      t.digValid = true ∧ t.digestBytes = some (sha256 m) := by
  obtain ⟨s1, hinit, h1⟩ := commanded_init (s := s.withLength (BitVec.ofNat 64 m.length)) hs (withLength_mlen _ s)
    (lengthExceeds_of_lt hm)
  obtain ⟨s2, hblocks, h2⟩ := h1.drives_computeBlocks polls 1 (bs := cutBlocks (m.length / 64) m)
    fun _ => length_of_mem_cutBlocks (by omega)
  have htail := drives_loadBlk (off := 0) (bs := messageTail m) h2.idle (by rw [h2.phase]; rfl)
    (by rw [messageTail_length]; omega)
  obtain ⟨s3, s4, w, b, hpad, hbranch, h4, hblock, hdigest⟩ := h2.drives_pads polls (m.length / 64)
  obtain ⟨s5, habsorb, h5⟩ := h4.commanded_absorb rfl hblock
  rw [hdigest] at h5
  obtain ⟨s6, hextract, h6, hvalid, hread⟩ := h5.commanded_extract
  have hdigits := drives_readDig h6.idle hvalid hread (digest_length _)
  obtain ⟨t, hclear, ht⟩ := h6.commanded_clear
  obtain ⟨hvalid', hmem⟩ := hclear.clear_keeps_digest
  rw [computeInputs_eq]
  refine ⟨t, ?_, ht, hvalid'.trans hvalid,
    Memory.readBytes_eq_some.mpr ⟨digest_length _, fun i hi => by rw [hmem]; exact hread i hi⟩⟩
  exact (drives_setLen hs _) |>.command hinit _ |>.append hblocks |>.append htail |>.command hpad _
    |>.append hbranch |>.command habsorb _ |>.command hextract _ |>.append hdigits |>.command hclear _

/-- Settles O52: the pieces of COMPUTE drive the block one after the other. -/
theorem computeGivesTheDigest : Obligations.ComputeGivesTheDigest := by
  intro s polls m _ hs hm
  obtain ⟨t, hdrives, ht, hvalid, hdigest⟩ := drives_compute hs hm polls
  obtain ⟨t', hrun, ht', -⟩ := hdrives { s with inputs := computeInputs polls m } [] (setInputs_sameBlock s _)
    (List.append_nil _).symm
  refine ⟨t', ⟨hrun, ht'.fault.trans ht.idle.2⟩, ht'.phase.trans ht.phase, ht'.h.trans ht.hash,
    ht'.digValid.trans hvalid, ?_⟩
  simpa only [State.digestBytes, ht'.mem] using hdigest

end Sys2Proof.Machine

/-! ## The compression function (41_compression.md R133 to R138) -/

namespace Sys2Proof.Machine

theorem be32_toNat (b0 b1 b2 b3 : Byte) :
    (be32 b0 b1 b2 b3).toNat = b0.toNat * 2 ^ 24 + b1.toNat * 2 ^ 16 + b2.toNat * 2 ^ 8 + b3.toNat := by
  rw [be32, BitVec.toNat_ofNat]
  have h0 := b0.isLt
  have h1 := b1.isLt
  have h2 := b2.isLt
  have h3 := b3.isLt
  omega

/-! ### The schedule -/

theorem blockWords_length (bs : List Byte) : (blockWords bs).length = bs.length / 4 := by
  induction bs using blockWords.induct with
  | case1 b0 b1 b2 b3 bs ih => simp only [blockWords, List.length_cons, ih]; omega
  | case2 bs h =>
    have hshort : bs.length < 4 := by
      match bs, h with
      | [], _ | [_], _ | [_, _], _ | [_, _, _], _ => simp
      | b0 :: b1 :: b2 :: b3 :: bs, h => exact absurd rfl (h b0 b1 b2 b3 bs)
    rw [blockWords, List.length_nil]
    · omega
    · exact h

/-- Word i of a block is made of its bytes 4i to 4i + 3 (R113, R133). -/
theorem getElem?_blockWords {bs : List Byte} {i : Nat} (hi : 4 * i + 3 < bs.length) :
    ∃ b0 b1 b2 b3, bs[4 * i]? = some b0 ∧ bs[4 * i + 1]? = some b1 ∧ bs[4 * i + 2]? = some b2 ∧
      bs[4 * i + 3]? = some b3 ∧ (blockWords bs)[i]? = some (be32 b0 b1 b2 b3) := by
  induction i generalizing bs with
  | zero =>
    match bs, hi with
    | b0 :: b1 :: b2 :: b3 :: bs, _ => exact ⟨b0, b1, b2, b3, rfl, rfl, rfl, rfl, rfl⟩
  | succ i ih =>
    match bs, hi with
    | b0 :: b1 :: b2 :: b3 :: bs, hi =>
      simp only [List.length_cons] at hi
      exact ih (bs := bs) (by omega)

theorem extendSchedule_length (n : Nat) (w : List Word) : (extendSchedule n w).length = w.length + n := by
  induction n generalizing w with
  | zero => rfl
  | succ n ih => rw [extendSchedule, ih, List.length_append, List.length_singleton]; omega

/-- The expansion keeps the words it starts from. -/
theorem getD_extendSchedule_of_lt (n : Nat) {w : List Word} {i : Nat} (hi : i < w.length) :
    (extendSchedule n w).getD i 0 = w.getD i 0 := by
  induction n generalizing w with
  | zero => rfl
  | succ n ih =>
    rw [extendSchedule, ih (by rw [List.length_append]; omega), List.getD_eq_getElem?_getD,
      List.getElem?_append_left hi, List.getD_eq_getElem?_getD]

/-- The recurrence of R134 between the words of `w`. -/
def ExpandsAt (w : List Word) (t : Nat) : Prop :=
  w.getD t 0 = smallSigma1 (w.getD (t - 2) 0) + w.getD (t - 7) 0 + smallSigma0 (w.getD (t - 15) 0) + w.getD (t - 16) 0

/-- Every word that the expansion adds follows the recurrence. -/
theorem extendSchedule_expandsAt {n t : Nat} {w : List Word} (h16 : 16 ≤ w.length) (hlo : w.length ≤ t)
    (hhi : t < w.length + n) : ExpandsAt (extendSchedule n w) t := by
  induction n generalizing w with
  | zero => omega
  | succ n ih =>
    have hlen : (w ++ [nextScheduleWord w]).length = w.length + 1 := by simp
    obtain rfl | hlt := Nat.eq_or_lt_of_le hlo
    · have hold : ∀ j, j < w.length → (extendSchedule (n + 1) w).getD j 0 = w.getD j 0 := fun j hj =>
        getD_extendSchedule_of_lt (n + 1) hj
      have hnew : (extendSchedule (n + 1) w).getD w.length 0 = nextScheduleWord w := by
        rw [extendSchedule, getD_extendSchedule_of_lt n (by omega)]
        simp
      rw [ExpandsAt, hnew, hold _ (by omega), hold _ (by omega), hold _ (by omega), hold _ (by omega), nextScheduleWord]
    · exact ih (by omega) (by omega) (by omega)

/-- W[t] of a block. -/
def scheduleWord (block : List Byte) (t : Nat) : Word := (schedule block).getD t 0

section Schedule
variable {block : List Byte} (hlen : block.length = 64)
include hlen

theorem blockWords_length_of_block : (blockWords block).length = 16 := by rw [blockWords_length, hlen]

theorem schedule_length : (schedule block).length = 64 := by
  rw [schedule, extendSchedule_length, blockWords_length_of_block hlen]

theorem getElem?_schedule {t : Nat} (ht : t < 64) : (schedule block)[t]? = some (scheduleWord block t) := by
  have hin : t < (schedule block).length := by rw [schedule_length hlen]; exact ht
  rw [scheduleWord, List.getD_eq_getElem?_getD, List.getElem?_eq_getElem hin, Option.getD_some]

/-- R133: the first 16 words of the schedule are the block's. -/
theorem scheduleWord_of_lt {i : Nat} (hi : i < 16) : ∃ b0 b1 b2 b3, block[4 * i]? = some b0 ∧
    block[4 * i + 1]? = some b1 ∧ block[4 * i + 2]? = some b2 ∧ block[4 * i + 3]? = some b3 ∧
    scheduleWord block i = be32 b0 b1 b2 b3 := by
  obtain ⟨b0, b1, b2, b3, h0, h1, h2, h3, hword⟩ := getElem?_blockWords (bs := block) (i := i) (by omega)
  refine ⟨b0, b1, b2, b3, h0, h1, h2, h3, ?_⟩
  rw [scheduleWord, schedule, getD_extendSchedule_of_lt _ (by rw [blockWords_length_of_block hlen]; exact hi),
    List.getD_eq_getElem?_getD, hword, Option.getD_some]

/-- R134: the others follow the recurrence. -/
theorem scheduleWord_expands {t : Nat} (hlo : 16 ≤ t) (hhi : t < 64) : ExpandsAt (schedule block) t := by
  have hwords := blockWords_length_of_block hlen
  exact extendSchedule_expandsAt (n := 48) (by omega) (by omega) (by omega)

end Schedule

/-! ### The rounds -/

theorem rounds_append (xs ys : List (Word × Word)) (v : Words8) : rounds (xs ++ ys) v = rounds ys (rounds xs v) := by
  induction xs generalizing v with
  | nil => rfl
  | cons x xs ih => exact ih _

/-- The working variables after the first `t` rounds on a block. -/
def workingVars (h : Words8) (block : List Byte) (t : Nat) : Words8 := rounds ((kTable.zip (schedule block)).take t) h

/-- R136: round t reads K[t] and W[t]. -/
theorem workingVars_succ (h : Words8) {block : List Byte} (hlen : block.length = 64) {t : Nat} (ht : t < 64) :
    ∃ k, kTable[t]? = some k ∧
      workingVars h block (t + 1) = round (workingVars h block t) k (scheduleWord block t) := by
  obtain ⟨k, hk⟩ : ∃ k, kTable[t]? = some k := ⟨_, List.getElem?_eq_getElem (show t < kTable.length from ht)⟩
  have hw : (schedule block)[t]? = some (scheduleWord block t) := getElem?_schedule hlen ht
  have hpair : (kTable.zip (schedule block))[t]? = some (k, scheduleWord block t) := by
    simp only [List.getElem?_zip_eq_some]
    exact ⟨hk, hw⟩
  refine ⟨k, hk, ?_⟩
  rw [workingVars, List.take_add_one, hpair, rounds_append]
  rfl

theorem compress_eq_feedForward (h : Words8) {block : List Byte} (hlen : block.length = 64) :
    compress h block = feedForward h (workingVars h block 64) := by
  have hall : (kTable.zip (schedule block)).length ≤ 64 := by
    rw [List.length_zip, schedule_length hlen]
    exact Nat.min_le_right _ _
  rw [compress, workingVars, List.take_of_length_le hall]

/-- Settles O14: W is the schedule, and V(t) are the working variables after the first t rounds. -/
theorem compressFollowsTheRounds : Obligations.CompressFollowsTheRounds := by
  intro h block hlen
  refine ⟨scheduleWord block, workingVars h block, fun i hi => ?_, fun t => scheduleWord_expands hlen, rfl,
    fun t ht => ?_, compress_eq_feedForward h hlen⟩
  · obtain ⟨b0, b1, b2, b3, h0, h1, h2, h3, hword⟩ := scheduleWord_of_lt hlen hi
    exact ⟨b0, b1, b2, b3, h0, h1, h2, h3, by rw [hword, be32_toNat]⟩
  · obtain ⟨k, hk, hround⟩ := workingVars_succ h hlen ht
    rw [hround]
    exact ⟨k, hk, rfl, rfl, rfl, rfl, rfl, rfl, rfl, rfl⟩

end Sys2Proof.Machine

/-! ## The overflow block and the bytes a pad overwrites (42_padding.md R152, R154, R161) -/

namespace Sys2Proof.Machine

/-- Settles O19: byte by byte, what writing `padShapeB` leaves. -/
theorem padShapeBWritesTheOverflowBlock : Obligations.PadShapeBWritesTheOverflowBlock := by
  intro s len lo hi hb hlo hhi hlen
  have hshape : shapeA len = false := decide_eq_false (by omega)
  have hvs := padShapeB_length (len := len.val) (by omega)
  rw [exec_pad_of_busy len hb]
  simp only [performPad, mlen_of_halves hlo hhi, hshape, Bool.false_eq_true, if_false]
  refine ⟨_, rfl, rfl, ?_, fun i hi' hi64 => ?_, fun a ha => ?_⟩ <;> simp only [finish_mem, blkBase]
  · rw [Memory.read_writeBytes_inside (Nat.add_zero _).symm (by omega)]
    rfl
  · obtain ⟨k, rfl⟩ := Nat.exists_eq_add_of_lt hi'
    rw [Memory.read_writeBytes_inside (i := k + 1) (by omega) (by omega), padShapeB, List.getElem?_cons_succ,
      List.getElem?_replicate, if_pos (by omega)]
  · exact Memory.read_writeBytes_outside (by omega)

/-- What PAD len writes from BLK[len] on, in either shape (R152); `l` is the bit count. -/
def padBytes (len : Fin 64) (l : BitVec 64) : List Byte :=
  if shapeA len then padShapeA len.val l else padShapeB len.val

theorem padBytes_length (len : Fin 64) (l : BitVec 64) : (padBytes len l).length = 64 - len.val := by
  unfold padBytes
  split
  · next ha => exact padShapeA_length l (of_decide_eq_true ha)
  · exact padShapeB_length (by omega)

theorem getElem?_padBytes_zero (len : Fin 64) (l : BitVec 64) : (padBytes len l)[0]? = some 0x80 := by
  unfold padBytes
  split <;> rfl

theorem Performed.mem_of_pad {s t : State} {len : Fin 64} (h : Performed s (.pad len) t) :
    ∃ n, s.mlen = some n ∧ t.mem = s.mem.writeBytes (blkBase + len.val) (padBytes len (bitCount n)) := by
  cases h with
  | padA hn ha => exact ⟨_, hn, by rw [padBytes, if_pos ha]; rfl⟩
  | padB hn hb => exact ⟨_, hn, by rw [padBytes, hb]; rfl⟩

theorem Performed.mem_of_padnull {s t : State} (h : Performed s .padnull t) :
    ∃ n, s.mlen = some n ∧ t.mem = s.mem.writeBytes blkBase (padShapeC (bitCount n)) := by
  cases h with
  | padnull hn => exact ⟨_, hn, rfl⟩

/-- Two memories with the same bytes written read alike where they agreed or were overwritten. -/
theorem Memory.read_writeBytes_congr {vs : List Byte} {m m' : Memory} {a x : Nat}
    (h : x < a ∨ a + vs.length ≤ x → m.read x = m'.read x) :
    (m.writeBytes a vs).read x = (m'.writeBytes a vs).read x := by
  simp only [Memory.read_writeBytes]
  split
  · rfl
  · exact h (by omega)

theorem mlen_congr {s s' : State} (hlo : s.mlenLo = s'.mlenLo) (hhi : s.mlenHi = s'.mlenHi) : s.mlen = s'.mlen := by
  simp only [State.mlen, hlo, hhi]

section Performed
variable {s s' t t' : State} (hm : s.mlen = s'.mlen)
include hm

theorem Performed.block_eq_of_pad {len : Fin 64} (h : Performed s (.pad len) t) (h' : Performed s' (.pad len) t')
    (hpre : ∀ i, i < len.val → s.mem.read (0x40 + i) = s'.mem.read (0x40 + i)) {i : Nat} (hi : i < 64) :
    t.mem.read (0x40 + i) = t'.mem.read (0x40 + i) := by
  obtain ⟨n, hn, ht⟩ := h.mem_of_pad
  obtain ⟨n', hn', ht'⟩ := h'.mem_of_pad
  obtain rfl : n = n' := by simpa [hn, hn'] using hm
  rw [ht, ht']
  refine Memory.read_writeBytes_congr fun hout => hpre i ?_
  rw [padBytes_length, blkBase] at hout
  omega

theorem Performed.block_eq_of_padnull (h : Performed s .padnull t) (h' : Performed s' .padnull t') {i : Nat}
    (hi : i < 64) : t.mem.read (0x40 + i) = t'.mem.read (0x40 + i) := by
  obtain ⟨n, hn, ht⟩ := h.mem_of_padnull
  obtain ⟨n', hn', ht'⟩ := h'.mem_of_padnull
  obtain rfl : n = n' := by simpa [hn, hn'] using hm
  rw [ht, ht']
  refine Memory.read_writeBytes_congr fun hout => ?_
  rw [padShapeC_length, blkBase] at hout
  omega

end Performed

/-- R152: the byte behind the message is 0x80. -/
theorem Performed.read_of_pad {s t : State} {len : Fin 64} (h : Performed s (.pad len) t) :
    t.mem.read (0x40 + len.val) = some 0x80 := by
  obtain ⟨n, -, ht⟩ := h.mem_of_pad
  rw [ht, blkBase, Memory.read_writeBytes_inside (Nat.add_zero _).symm (by rw [padBytes_length]; omega),
    getElem?_padBytes_zero]

/-- Settles O21: the bytes a pad writes depend on MLEN and len alone. -/
theorem padOutputIgnoresOldBytes : Obligations.PadOutputIgnoresOldBytes := by
  intro s s' t t' hb hb' hlo hhi
  have hm : s.mlen = s'.mlen := mlen_congr hlo hhi
  refine ⟨fun len hpre h h' i hi => ?_, fun h => ?_, fun h h' i hi => ?_⟩
  · exact (exec_next_of_busy hb h).block_eq_of_pad hm (exec_next_of_busy hb' h') hpre hi
  · exact (exec_next_of_busy hb h).read_of_pad
  · exact (exec_next_of_busy hb h).block_eq_of_padnull hm (exec_next_of_busy hb' h') hi

end Sys2Proof.Machine

/-! ## PHASE's transition table (42_padding.md R156) -/

namespace Sys2Proof.Machine

theorem Phase.next_pad_eq_some {p q : Phase} {len : Fin 64} (h : p.next (.pad len) = some q) :
    q = if shapeA len then .paddedFinal else .paddedMore := by
  have hp : p = .absorbing := Phase.eq_absorbing_of_allows_pad (by rw [Phase.allows, h]; rfl)
  subst hp
  exact (Option.some.inj h).symm

theorem Phase.next_padnull_eq_some {p q : Phase} (h : p.next .padnull = some q) : q = .paddedFinal := by
  have hp : p = .needNull := Phase.eq_needNull_of_allows_padnull (by rw [Phase.allows, h]; rfl)
  subst hp
  exact (Option.some.inj h).symm

/-- EXTRACT stays in the phase it is allowed in. -/
theorem Phase.next_extract_eq_some {p q : Phase} (h : p.next .extract = some q) : q = p := by
  cases p with
  | done | cleared => exact (Option.some.inj h).symm
  | uninit | absorbing | paddedFinal | paddedMore | needNull => cases h

theorem Performed.phase_of_next {s t : State} {i : Instr} {p : Phase} (h : Performed s i t)
    (hp : s.phase.next i = some p) : t.phase = p := by
  cases h with
  | init | clear => exact Option.some.inj hp
  | absorb hh hb hafter => exact Option.some.inj (hafter.symm.trans hp)
  | padA hn ha => rw [Phase.next_pad_eq_some hp, ha]; rfl
  | padB hn hb => rw [Phase.next_pad_eq_some hp, hb]; rfl
  | padnull hn => exact (Phase.next_padnull_eq_some hp).symm
  | extract hh => exact (Phase.next_extract_eq_some hp).symm

/-- Settles O26: the table by its rows and the shape of each PAD, the performed commands by the lemma above. -/
theorem phaseFollowsTheTransitionTable : Obligations.PhaseFollowsTheTransitionTable := by
  refine ⟨fun small large hsmall hlarge => ?_, fun s t i p hb hp h => (exec_next_of_busy hb h).phase_of_next hp⟩
  have hA : shapeA small = true := decide_eq_true hsmall
  have hB : shapeA large = false := decide_eq_false (by omega)
  simp [Phase.next, Phase.afterAbsorb, hA, hB]

end Sys2Proof.Machine

/-! ## The bit count and the length of the padded message (42_padding.md R151, R160, R162) -/

namespace Sys2Proof.Machine

theorem bitCount_toNat (n : BitVec 64) : (bitCount n).toNat = n.toNat * 8 % 2 ^ 64 := BitVec.toNat_mul n 8

theorem lengthExceeds_eq_false {n : BitVec 64} {limit : Nat} : lengthExceeds n limit = false ↔ n.toNat < limit := by
  rw [lengthExceeds, decide_eq_false_iff_not, Nat.not_le]

/-- Settles O22: a length below 2^61 has a bit count below 2^64. -/
theorem bitCountIsEightTimesTheLength : Obligations.BitCountIsEightTimesTheLength := by
  refine fun n => ⟨bitCount_toNat n, fun limit hlimit hn => ?_⟩
  rw [lengthExceeds_eq_false] at hn
  rw [Config.maxMsgBytesLimit] at hlimit
  rw [bitCount_toNat, Nat.mod_eq_of_lt (by omega), Nat.mul_comm]

theorem bitCount_ofNat (n : Nat) : bitCount (BitVec.ofNat 64 n) = BitVec.ofNat 64 (8 * n) := by
  rw [Nat.mul_comm, BitVec.ofNat_mul]
  rfl

theorem zeroCount_fills (n : Nat) : (n + 1 + zeroCount n + 8) % 64 = 0 := by
  unfold zeroCount
  omega

theorem zeroCount_le {n z : Nat} (h : (n + 1 + z + 8) % 64 = 0) : zeroCount n ≤ z := by
  unfold zeroCount
  omega

theorem paddedMessage_length (m : List Byte) :
    (paddedMessage m).length = 64 * (m.length / 64 + if m.length % 64 ≤ 55 then 1 else 2) := by
  split
  · next hr =>
    rw [paddedMessage_of_shapeA m hr, List.length_append, padShapeA_length _ hr]
    omega
  · next hr =>
    rw [paddedMessage_of_shapeB m (by omega), List.length_append, List.length_append, padShapeB_length (by omega),
      padShapeC_length]
    omega

/-- Settles O54: `zeroCount` is the least fill, and the two shapes of the pads give the number of blocks. -/
theorem paddedMessageIsWholeBlocks : Obligations.PaddedMessageIsWholeBlocks := by
  refine fun m => ⟨⟨zeroCount m.length, ?_, zeroCount_fills _, fun z => zeroCount_le⟩, paddedMessage_length m⟩
  rw [paddedMessage, bitCount_ofNat]
  simp

end Sys2Proof.Machine

/-! ## CLEAR, and EXTRACT behind it (43_digest.md R172, R184, R185) -/

namespace Sys2Proof.Machine

theorem exec_clear_of_busy {s : State} (hb : s.busy = true) : exec .clear s = .next (performClear s) := by
  simp [exec, execClear, hb]

/-- CLEAR is allowed in every phase (42_padding.md R156) and has no operand (R203). -/
theorem issueFault_clear (s : State) : issueFault .clear s = none := issueFault_eq_none.mpr ⟨rfl, rfl⟩

/-- Settles O12: the issue half is `accept`, the perform half `performClear`. -/
theorem clearZeroesTheStateWords : Obligations.ClearZeroesTheStateWords := by
  refine fun s => ⟨fun hb => ?_, fun hb => ?_⟩
  · rw [exec_of_not_busy .clear hb, issue_of_accepted (issueFault_clear s), accept]
  · rw [exec_clear_of_busy hb, performClear, finish, zeroWords]

theorem commanded_clear {s : State} (hs : s.idle) : Commanded s .clear (performClear (accept .clear s)) :=
  ⟨hs, issueFault_clear s, exec_clear_of_busy rfl⟩

/-- EXTRACT in a phase that allows it, with H defined: the digest stands in DIG (R171). -/
theorem commanded_extract_of_allowed {s : State} (hs : s.idle) (hp : s.phase.allows .extract = true) {w : Words8}
    (hh : s.h = some w) : ∃ t, Commanded s .extract t ∧ t.fault = false ∧ t.digValid = true ∧
      ∀ i, i < 32 → t.mem.read (digBase + i) = w.digest[i]? := by
  have hperf := exec_extract_of_busy (s := accept .extract s) rfl
  simp only [performExtract, accept_h, hh] at hperf
  exact ⟨_, ⟨hs, issueFault_eq_none.mpr ⟨hp, rfl⟩, hperf⟩, hs.2, rfl, fun i hi =>
    Memory.read_writeBytes_inside rfl (by rw [digest_length]; exact hi)⟩

theorem zeroWords_digest : zeroWords.digest = List.replicate 32 0x00 := by decide

/-- Settles O51: CLEAR leaves eight zero words in H and a phase that allows EXTRACT, which serializes them. -/
theorem clearThenExtractGivesZeros : Obligations.ClearThenExtractGivesZeros := by
  intro s p q _ hs
  have hclear := commanded_clear hs
  obtain ⟨t, hextract, hf, hvalid, hread⟩ :=
    commanded_extract_of_allowed (s := performClear (accept .clear s)) ⟨rfl, hs.2⟩ rfl rfl
  obtain ⟨t', hrun, ht', -⟩ := (hclear.drives p).command hextract q
    { s with inputs := commandInputs p .clear ++ commandInputs q .extract } [] (setInputs_sameBlock s _)
    (List.append_nil _).symm
  refine ⟨t', ⟨hrun, ht'.fault.trans hf⟩, ht'.digValid.trans hvalid, fun i hi => ?_⟩
  rw [ht'.mem]
  exact (hread i hi).trans (by rw [zeroWords_digest, List.getElem?_replicate, if_pos hi])

end Sys2Proof.Machine

/-! ## Accesses to a byte of BLK or DIG and to a half of MLEN (43_digest.md R173 to R176) -/

namespace Sys2Proof.Machine

section Step
variable {s : State} {rest : List Input} {acc : HostAccess}

/-- A step whose access raises a fault. -/
theorem step_faultEntered {code : FaultCode} (hin : s.inputs = .access acc :: rest)
    (h : access acc { s with inputs := rest } = .next (raiseFault code acc { s with inputs := rest })) :
    ∃ t, step s = .next t ∧ t.inputs = rest ∧ FaultEntered code.code.toNat acc s t :=
  ⟨_, (step_access hin).trans h, rfl, raiseFault_faultEntered code acc (setInputs_sameBlock s rest)⟩

/-- R242: a legal access other than a read of a status register, while BUSY = 1. -/
theorem step_of_busy (hin : s.inputs = .access acc :: rest) (hf : s.fault = false) (hb : s.busy = true)
    (hl : acc.legal = true) (hr : acc.readsStatus = false) :
    ∃ t, step s = .next t ∧ t.inputs = rest ∧ FaultEntered 4 acc s t :=
  step_faultEntered (code := .concurrent) hin (access_of_busy hf hl hb hr)

/-- A read of a register half or a buffer byte, where it is defined. -/
theorem step_read_defined (hin : s.inputs = .access acc :: rest) {v : Option Reply}
    (h : access acc { s with inputs := rest } = .next (readOrFault acc v { s with inputs := rest })) {r : Reply}
    (hv : v = some r) : step s = .next { s with inputs := rest, reply := r } := by
  subst hv
  exact (step_access hin).trans h

/-- A read of a register half or a buffer byte, where it is not defined. -/
theorem step_read_undefined (hin : s.inputs = .access acc :: rest) {v : Option Reply}
    (h : access acc { s with inputs := rest } = .next (readOrFault acc v { s with inputs := rest })) (hv : v = none) :
    ∃ t, step s = .next t ∧ t.inputs = rest ∧ FaultEntered 6 acc s t := by
  subst hv
  exact step_faultEntered (code := .undefinedRead) hin h

end Step

/-! ### BLK (R173, R174) -/

/-- An 8-bit write carries the low byte of its data (20_memory.md R50). -/
theorem byteData_eq_ofNat (acc : HostAccess) : acc.byteData = BitVec.ofNat 8 acc.data.toNat := rfl

section Blk
variable {s : State} {i : Nat} (hi : i < 64) (v : Word)
include hi

theorem blkOffset_toNat : (BitVec.ofNat 8 (0x40 + i)).toNat = 0x40 + i := by
  rw [BitVec.toNat_ofNat]
  omega

theorem blk_legal (dir : Dir) : HostAccess.legal ⟨BitVec.ofNat 8 (0x40 + i), .w8, dir, v⟩ = true := by
  have hlast : 0x40 + i ≤ 0x7F := by omega
  simp [legal_iff, blkOffset_toNat hi, hlast]

theorem access_readBlk (hs : s.idle) : access ⟨BitVec.ofNat 8 (0x40 + i), .w8, .read, v⟩ s =
    .next (readOrFault ⟨BitVec.ofNat 8 (0x40 + i), .w8, .read, v⟩ ((s.mem.read (0x40 + i)).map .byte) s) := by
  have hdig : 0x40 + i < digBase := by rw [digBase]; omega
  rw [access_of_free hs.2 (blk_legal hi v .read) hs.1]
  simp only [performAccess, HostAccess.op, blkOffset_toNat hi, hdig, if_true]

theorem access_writeBlkByte (hs : s.idle) : access ⟨BitVec.ofNat 8 (0x40 + i), .w8, .write, v⟩ s =
    if s.phase.holdsPaddedBlock then
      .next (raiseFault .bufferHazard ⟨BitVec.ofNat 8 (0x40 + i), .w8, .write, v⟩ s)
    else .next (answer .silent { s with mem := s.mem.write (0x40 + i) (BitVec.ofNat 8 v.toNat) }) := by
  rw [access_of_free hs.2 (blk_legal hi v .write) hs.1]
  simp only [performAccess, HostAccess.op, blkOffset_toNat hi, byteData_eq_ofNat]

end Blk

theorem Phase.holdsPaddedBlock_iff {p : Phase} : p.holdsPaddedBlock = true ↔ p = .paddedFinal ∨ p = .paddedMore := by
  cases p <;> simp [Phase.holdsPaddedBlock]

/-- Settles O30: the read by what the byte holds, the write by the phase. -/
theorem blockByteAccesses : Obligations.BlockByteAccesses := by
  refine fun s rest i v hi hf => ⟨fun hin => ?_, fun hin => ?_⟩
  · have hread (hb : s.busy = false) := access_readBlk (s := { s with inputs := rest }) hi v ⟨hb, hf⟩
    exact ⟨fun hb => step_of_busy hin hf hb (blk_legal hi v .read) rfl,
      fun hb b hv => step_read_defined hin (hread hb) (congrArg (Option.map Reply.byte) hv),
      fun hb hv => step_read_undefined hin (hread hb) (congrArg (Option.map Reply.byte) hv)⟩
  · have hwrite (hb : s.busy = false) := access_writeBlkByte (s := { s with inputs := rest }) hi v ⟨hb, hf⟩
    refine ⟨fun hb => step_of_busy hin hf hb (blk_legal hi v .write) rfl, fun hb hp => ?_,
      fun hb hfinal hmore => ?_⟩
    · have hpadded := Phase.holdsPaddedBlock_iff.mpr hp
      exact step_faultEntered (code := .bufferHazard) hin ((hwrite hb).trans (if_pos hpadded))
    · have hfree : ¬ s.phase.holdsPaddedBlock = true := by simp [Phase.holdsPaddedBlock_iff, hfinal, hmore]
      exact ⟨_, (step_access hin).trans ((hwrite hb).trans (if_neg hfree)), rfl,
        (Memory.read_write ..).trans (if_pos rfl), fun a ha => (Memory.read_write ..).trans (if_neg ha)⟩

/-! ### DIG (R175) -/

section Dig
variable {s : State} {i : Nat} (hi : i < 32) (v : Word)
include hi

theorem digOffset_toNat : (BitVec.ofNat 8 (0x80 + i)).toNat = 0x80 + i := by
  rw [BitVec.toNat_ofNat]
  omega

theorem dig_legal_iff {dir : Dir} :
    HostAccess.legal ⟨BitVec.ofNat 8 (0x80 + i), .w8, dir, v⟩ = true ↔ dir = .read := by
  have hblk : ¬ 0x80 + i ≤ 0x7F := by omega
  have hdig : 0x80 + i ≤ 0x9F := by omega
  simp [legal_iff, digOffset_toNat hi, hblk, hdig]

theorem access_readDigByte (hs : s.idle) : access ⟨BitVec.ofNat 8 (0x80 + i), .w8, .read, v⟩ s =
    .next (readOrFault ⟨BitVec.ofNat 8 (0x80 + i), .w8, .read, v⟩
      (if s.digValid then (s.mem.read (0x80 + i)).map .byte else none) s) := by
  have hdig : ¬ 0x80 + i < digBase := by rw [digBase]; omega
  rw [access_of_free hs.2 ((dig_legal_iff hi v).mpr rfl) hs.1]
  simp only [performAccess, HostAccess.op, digOffset_toNat hi, hdig, if_false]

end Dig

/-- R28, R29: with the invariant, a digest byte is defined while DIG_VALID = 1. -/
theorem State.Inv.exists_digest_byte {s : State} (h : s.Inv) (hd : s.digValid = true) {i : Nat} (hi : i < 32) :
    ∃ b, s.mem.read (0x80 + i) = some b :=
  Option.isSome_iff_exists.mp
    ((h.digestDefined (0x80 + i) (Nat.le_add_right _ _) (by rw [bufferEnd]; omega)).trans hd)

/-- Settles O31: the read by DIG_VALID, and the write is no row of the address map. -/
theorem digestByteAccesses : Obligations.DigestByteAccesses := by
  refine fun s rest i v hinv hi hf => ⟨fun hin => ?_, fun hin => ?_⟩
  · have hread (hb : s.busy = false) := access_readDigByte (s := { s with inputs := rest }) hi v ⟨hb, hf⟩
    refine ⟨fun hb => step_of_busy hin hf hb ((dig_legal_iff hi v).mpr rfl) rfl, fun hb hd => ?_,
      fun hb hd => step_read_undefined hin (hread hb) (by simp [hd])⟩
    obtain ⟨b, hv⟩ := hinv.exists_digest_byte hd hi
    exact ⟨b, hv, step_read_defined hin (hread hb) (by simp [hd, hv])⟩
  · have hl : HostAccess.legal ⟨BitVec.ofNat 8 (0x80 + i), .w8, .write, v⟩ = false :=
      Bool.eq_false_iff.mpr fun h => nomatch (dig_legal_iff hi v).mp h
    exact step_faultEntered (code := .badAccess) hin (access_of_illegal hf hl)

/-! ### MLEN (R176) -/

section Mlen
variable {s : State} (hs : s.idle) (v : Word)
include hs

theorem access_readMlenLo : access ⟨0x10, .w32, .read, v⟩ s =
    .next (readOrFault ⟨0x10, .w32, .read, v⟩ (s.mlenLo.map .word) s) := access_of_free hs.2 rfl hs.1

theorem access_readMlenHi : access ⟨0x14, .w32, .read, v⟩ s =
    .next (readOrFault ⟨0x14, .w32, .read, v⟩ (s.mlenHi.map .word) s) := access_of_free hs.2 rfl hs.1

theorem access_writeMlenLo : access ⟨0x10, .w32, .write, v⟩ s =
    .next (answer .silent { s with mlenLo := some v }) := access_of_free hs.2 rfl hs.1

theorem access_writeMlenHi : access ⟨0x14, .w32, .write, v⟩ s =
    .next (answer .silent { s with mlenHi := some v }) := access_of_free hs.2 rfl hs.1

end Mlen

/-- A half of MLEN is read and written 32 bits wide (20_memory.md R51), and is no status register. -/
theorem mlen_legal {off : BitVec 8} (hoff : off = 0x10 ∨ off = 0x14) (dir : Dir) (v : Word) :
    HostAccess.legal ⟨off, .w32, dir, v⟩ = true ∧ HostAccess.readsStatus ⟨off, .w32, dir, v⟩ = false := by
  obtain rfl | rfl := hoff <;> cases dir <;> exact ⟨rfl, rfl⟩

/-- Settles O32: the checks of a busy block, then one access for each half and direction. -/
theorem lengthRegisterAccesses : Obligations.LengthRegisterAccesses := by
  refine fun s rest v hf => ⟨fun off dir hoff hin hb => ?_, fun hb => ?_⟩
  · obtain ⟨hl, hr⟩ := mlen_legal hoff dir v
    exact step_of_busy hin hf hb hl hr
  · have hs : State.idle { s with inputs := rest } := ⟨hb, hf⟩
    exact ⟨fun hin => (step_access hin).trans (access_writeMlenLo hs v),
      fun hin => (step_access hin).trans (access_writeMlenHi hs v),
      fun hin => ⟨fun n hn => step_read_defined hin (access_readMlenLo hs v) (congrArg (Option.map Reply.word) hn),
        fun hn => step_read_undefined hin (access_readMlenLo hs v) (congrArg (Option.map Reply.word) hn)⟩,
      fun hin => ⟨fun n hn => step_read_defined hin (access_readMlenHi hs v) (congrArg (Option.map Reply.word) hn),
        fun hn => step_read_undefined hin (access_readMlenHi hs v) (congrArg (Option.map Reply.word) hn)⟩⟩

end Sys2Proof.Machine

/-! ## The core's turn and RST (60_exceptions.md R208, R209; 70_reset_and_hazards.md R230, R234) -/

namespace Sys2Proof.Machine

/-- Settles O8: the step is the core's turn, enabled or not. -/
theorem coreTurnRunsThePendingCommand : Obligations.CoreTurnRunsThePendingCommand := by
  intro s hturn
  rw [step_core hturn]
  exact ⟨fun i hb hf hp => coreTurn_of_pending (s := { s with inputs := s.inputs.tail }) hb hf hp,
    fun h => coreTurn_of_not_enabled (s := { s with inputs := s.inputs.tail }) h⟩

theorem hardwareReset_sameBlock (s : State) :
    SameBlock { State.reset with maxMsgBytes := s.maxMsgBytes } (hardwareReset s) := by
  constructor <;> rfl

/-- Settles O10: the next state is `hardwareReset`'s. -/
theorem resetInputRestoresEveryValue : Obligations.ResetInputRestoresEveryValue := fun s rest hin =>
  ⟨_, step_rst hin, hardwareReset_sameBlock { s with inputs := rest }, rfl⟩

/-- Settles O38: an accepted command is performed (`State.Inv.exec_pending`), and `Performed.frame` says what that
leaves. -/
theorem coreStepNeverFaults : Obligations.CoreStepNeverFaults := by
  intro s i hinv hp
  obtain ⟨hb, hf, t, ht⟩ := hinv.exec_pending hp
  obtain ⟨hbusy, hpend, hfault, -⟩ := (exec_next_of_busy hb ht).frame
  exact ⟨t, ht, hfault.trans hf, hbusy, hpend⟩

end Sys2Proof.Machine

/-! ## Fault entry and the faulted state (60_exceptions.md R205, R206) -/

namespace Sys2Proof.Machine

theorem readsStatus_iff {acc : HostAccess} : acc.readsStatus = true ↔
    acc.width = .w32 ∧ acc.dir = .read ∧ acc.off.toNat ∈ [0x04, 0x08, 0x0C] := by
  have hoff : ∀ k : BitVec 8, acc.off = k ↔ acc.off.toNat = k.toNat := fun k => BitVec.toNat_inj.symm
  simp [HostAccess.readsStatus, hoff, and_assoc, or_assoc]

/-- Settles O28: the access is none of the status reads, so it fails the check of R242. -/
theorem busyBlockRejectsOtherAccesses : Obligations.BusyBlockRejectsOtherAccesses :=
  fun _ _ _ hin hf hb hl hread => step_of_busy hin hf hb hl (Bool.eq_false_iff.mpr (mt readsStatus_iff.mp hread))

/-- A host access that leaves the block faulted has entered the fault with its own record. A fault of a command's issue
checks records the write of the command's word, which is the word that was written. -/
theorem access_faultEntered {acc : HostAccess} {s s' t : State} (hs : SameBlock s s') (hf : s'.fault = false)
    (h : access acc s' = .next t) (ht : t.fault = true) :
    t.inputs = s'.inputs ∧ ∃ code : FaultCode, FaultEntered code.code.toNat acc s t := by
  cases hl : acc.legal with
  | false =>
    rw [access_of_illegal hf hl] at h
    cases h
    exact ⟨rfl, .badAccess, raiseFault_faultEntered .badAccess acc hs⟩
  | true =>
    obtain ⟨hfaulted, -⟩ | ⟨-, code, -, s'', acc', rfl, hrecord⟩ | ⟨-, -, hdone⟩ := access_cases h
    · exact absurd (hf.symm.trans hfaulted) Bool.false_ne_true
    · obtain ⟨rfl, rfl⟩ | ⟨w, i, ho, hd, rfl, rfl⟩ := hrecord
      · exact ⟨rfl, code, raiseFault_faultEntered code _ hs⟩
      · rw [writeCmd_access hl ho, decode_eq_ok_iff.mp hd]
        exact ⟨rfl, code, raiseFault_faultEntered code _ (hs.trans (answer_sameBlock _ _))⟩
    · obtain ⟨-, -, -, -, hfault, -⟩ := hdone.frame
      exact absurd (hf.symm.trans (hfault.symm.trans ht)) Bool.false_ne_true

/-- A core turn keeps FAULT (R208). -/
theorem coreTurn_fault {s t : State} (h : coreTurn s = .next t) : t.fault = s.fault := by
  obtain ⟨-, rfl⟩ | ⟨-, -, i, -, hperf⟩ := coreTurn_cases h
  · rfl
  · obtain ⟨-, -, hfault, -⟩ := hperf.frame
    exact hfault

/-- Settles O34: neither a core turn nor RST sets FAULT, and an access that does has entered the fault. -/
theorem everyFaultRecordsItsAccess : Obligations.EveryFaultRecordsItsAccess := by
  intro s t hf hstep ht
  obtain ⟨-, hcore⟩ | ⟨acc, rest, hin, hacc⟩ | ⟨rest, -, rfl⟩ := step_cases hstep
  · exact absurd (hf.symm.trans ((coreTurn_fault hcore).symm.trans ht)) Bool.false_ne_true
  · obtain ⟨hinputs, code, hentered⟩ := access_faultEntered (dropInput_sameBlock s) hf hacc ht
    obtain ⟨hlo, hhi⟩ := code.code_range
    exact ⟨acc, rest, _, hin, hinputs.trans (by simp [hin]), hlo, hhi, hentered⟩
  · exact absurd ht Bool.false_ne_true

/-- R206: in the faulted state only RST touches the block. -/
theorem step_sameBlock_of_faulted {s t : State} (hf : s.fault = true) (hstep : step s = .next t) :
    SameBlock s t ∨ ∃ rest, s.inputs = .rst :: rest := by
  cases step_effect hstep with
  | reset hin => exact .inr ⟨_, hin⟩
  | same hs => exact .inl hs
  | performed _ _ hf' | faulted hf' | accessed _ hf' => exact absurd (hf'.symm.trans hf) Bool.false_ne_true

/-- A write returns nothing in the faulted state. -/
theorem faultedAccess_write_silent {acc : HostAccess} (hw : acc.dir = .write) (s : State) :
    (faultedAccess acc s).reply = .silent := by
  have hread : acc.readsStatus = false := by simp [HostAccess.readsStatus, hw]
  simp [faultedAccess, hread, HostAccess.unspecifiedReply, hw]

/-- Settles O36: the lemmas above, and the reads of the status registers. -/
theorem faultedStateIsFinal : Obligations.FaultedStateIsFinal := by
  intro s t hf hstep
  have hblock := step_sameBlock_of_faulted hf hstep
  have hreply {acc rest u} (hin : s.inputs = .access acc :: rest)
      (hacc : access acc { s with inputs := rest } = .next u) : t.reply = u.reply := by
    rw [step_access hin, hacc] at hstep
    cases hstep
    rfl
  refine ⟨hblock, fun ht => hblock.resolve_left fun hs => ?_, fun acc rest hin hw => ?_,
    fun v _ hin => hreply hin (access_readStatus v _), fun v _ hin => hreply hin (access_readFinfo0 v _),
    fun v _ hin => hreply hin (access_readFinfo1 v _)⟩
  · exact absurd (ht.symm.trans (hs.fault.trans hf)) Bool.false_ne_true
  · exact (hreply hin (access_of_faulted hf)).trans (faultedAccess_write_silent hw _)

/-- Settles O37: an access and RST always complete, and no core step is enabled in the faulted state. -/
theorem faultedStateAcceptsEveryAccess : Obligations.FaultedStateAcceptsEveryAccess := by
  intro s hf hone
  have hcore (hturn : s.inputs = [] ∨ ∃ rest, s.inputs = .core :: rest) : ∃ t, step s = .next t :=
    ⟨_, (step_core hturn).trans (coreTurn_of_not_enabled (.inr hf))⟩
  match hin : s.inputs with
  | [] => exact hcore (.inl hin)
  | .core :: rest => exact hcore (.inr ⟨rest, hin⟩)
  | .access acc :: rest => exact ⟨_, (step_access hin).trans (access_of_faulted hf)⟩
  | .rst :: rest => exact ⟨_, step_rst hin⟩
  | .secondHost acc :: rest => exact absurd hin (hone acc rest)

end Sys2Proof.Machine

/-! ## The checks of a CMD write (60_exceptions.md R203) -/

namespace Sys2Proof.Machine

/-! ### The first check that fails -/

section IssueFault
variable {s : State} {i : Instr}

theorem issueFault_of_not_allowed (hn : s.phase.next i = none) : issueFault i s = some .sequence := by
  simp [issueFault, Phase.allows, hn]

theorem issueFault_of_allowed (hn : s.phase.next i ≠ none) : issueFault i s = operandFault i s := by
  simp [issueFault, Phase.allows, Option.isSome_iff_ne_none, hn]

theorem operandFault_absorb_of_undefined (h : ∃ k, k < 64 ∧ s.mem.read (0x40 + k) = none) :
    operandFault .absorb s = some .undefinedRead := by
  simp [operandFault, block_eq_none.mpr h]

/-- PAD and PADNULL have the same operand check: MLEN. -/
theorem operandFault_of_pad (hi : i = .padnull ∨ ∃ len, i = .pad len) :
    operandFault i s = operandFault .padnull s := by
  obtain rfl | ⟨len, rfl⟩ := hi <;> rfl

theorem operandFault_padnull_of_undefined (h : s.mlenLo = none ∨ s.mlenHi = none) :
    operandFault .padnull s = some .undefinedRead := by
  simp [operandFault, mlen_eq_none.mpr h.symm]

theorem operandFault_padnull_of_halves {lo hi : Word} (hlo : s.mlenLo = some lo) (hhi : s.mlenHi = some hi) :
    operandFault .padnull s =
      if s.maxMsgBytes ≤ hi.toNat * 2 ^ 32 + lo.toNat then some .length else none := by
  have hfits : (hi.toNat * 2 ^ 32 + lo.toNat) % 2 ^ 64 = hi.toNat * 2 ^ 32 + lo.toNat :=
    Nat.mod_eq_of_lt (by have := hi.isLt; have := lo.isLt; omega)
  simp only [operandFault, mlen_of_halves hlo hhi, lengthExceeds, BitVec.toNat_ofNat, hfits, decide_eq_true_eq]

/-- The operands of a command that passes its operand checks. -/
theorem operandFault_eq_none_of_defined (habsorb : i = .absorb → ∀ k, k < 64 → s.mem.read (0x40 + k) ≠ none)
    (hpad : i = .padnull ∨ (∃ len, i = .pad len) → ∃ lo hi, s.mlenLo = some lo ∧ s.mlenHi = some hi ∧
      hi.toNat * 2 ^ 32 + lo.toNat < s.maxMsgBytes) : operandFault i s = none := by
  have hlength (hcmd : i = .padnull ∨ ∃ len, i = .pad len) : operandFault i s = none := by
    obtain ⟨lo, hi, hlo, hhi, hlt⟩ := hpad hcmd
    rw [operandFault_of_pad hcmd, operandFault_padnull_of_halves hlo hhi, if_neg (Nat.not_le.mpr hlt)]
  cases i with
  | absorb =>
    have hblock : s.block ≠ none := fun h =>
      have ⟨k, hk, hread⟩ := block_eq_none.mp h
      habsorb rfl k hk hread
    exact operandFault_absorb_eq_none.mpr (Option.isSome_iff_ne_none.mpr hblock)
  | pad len => exact hlength (.inr ⟨len, rfl⟩)
  | padnull => exact hlength (.inl rfl)
  | init | extract | clear => rfl

end IssueFault

/-! ### Issue -/

theorem SameBlock.issueFault_eq {s t : State} (h : SameBlock s t) (i : Instr) : issueFault i t = issueFault i s :=
  issueFault_congr i h.phase h.mem h.mlenLo h.mlenHi h.param

/-- A command that fails a check enters the fault of its CMD write (R205). -/
theorem issue_faultEntered {s s' : State} {i : Instr} {code : FaultCode} (hs : SameBlock s s')
    (h : issueFault i s = some code) :
    FaultEntered code.code.toNat (cmdWrite (encode i)) s (issue i s') := by
  rw [issue, hs.issueFault_eq, h]
  exact raiseFault_faultEntered code _ hs

theorem issue_inputs (i : Instr) (s : State) : (issue i s).inputs = s.inputs := by
  obtain ⟨code, -, h⟩ | ⟨-, h⟩ := issue_cases i s <;> rw [h] <;> rfl

/-- Settles O25: a word that is no command raises its fault, and a command's issue half goes by the first check that it
fails. -/
theorem commandWriteChecksRunInOrder : Obligations.CommandWriteChecksRunInOrder := by
  intro s rest w hin hf hb
  cases hd : decode w with
  | error e =>
    obtain ⟨t, hstep, hrest, hentered⟩ := step_faultEntered (code := .illegalCommand) hin
      (by rw [access_cmdWrite (s := { s with inputs := rest }) hf hb, hd])
    exact ⟨t, hstep, hrest, fun _ _ => hentered, nofun⟩
  | ok j =>
    have hs : SameBlock s (s.withPort rest .silent) := s.withPort_sameBlock rest .silent
    have hstep : step s = .next (issue j (s.withPort rest .silent)) :=
      (step_cmdWrite hin hf hb hd).trans (exec_of_not_busy (s := s.withPort rest .silent) j hb)
    obtain rfl : w = encode j := decode_eq_ok_iff.mp hd
    refine ⟨_, hstep, issue_inputs _ _, nofun, fun i hd' => ?_⟩
    obtain rfl : j = i := Except.ok.inj hd'
    refine ⟨fun hn => issue_faultEntered hs (issueFault_of_not_allowed hn), fun hn => ?_⟩
    have hchecks := issueFault_of_allowed hn
    refine ⟨fun habsorb hbyte => ?_, fun hpad hhalf => ?_, fun lo hi hpad hlo hhi hlong => ?_, fun hblk hlen => ?_⟩
    · subst habsorb
      exact issue_faultEntered hs (hchecks.trans (operandFault_absorb_of_undefined hbyte))
    · rw [operandFault_of_pad hpad, operandFault_padnull_of_undefined hhalf] at hchecks
      exact issue_faultEntered hs hchecks
    · rw [operandFault_of_pad hpad, operandFault_padnull_of_halves hlo hhi, if_pos hlong] at hchecks
      exact issue_faultEntered hs hchecks
    · have hnone := hchecks.trans (operandFault_eq_none_of_defined hblk hlen)
      exact issue_of_accepted ((hs.issueFault_eq j).trans hnone)

end Sys2Proof.Machine

/-! ## The instances of a platform (60_exceptions.md R216) -/

namespace Sys2Proof.Machine

/-- A step of the k-th instance replaces that instance's state by its next one and nothing else; where there is no k-th
instance it changes nothing. -/
theorem Platform.step_cases {p q : Platform} {k : Nat} (h : Platform.step p k = .next q) :
    (p[k]? = none ∧ q = p) ∨
    ∃ b t, p[k]? = some b ∧ Machine.step b.block = .next t ∧ q = p.set k { b with block := t } := by
  induction p generalizing k q with
  | nil =>
    cases h
    exact .inl ⟨rfl, rfl⟩
  | cons b p ih =>
    cases k with
    | zero =>
      simp only [Platform.step] at h
      split at h
      · next t ht =>
        cases h
        exact .inr ⟨b, t, rfl, ht, rfl⟩
      · cases h
      · cases h
    | succ k =>
      simp only [Platform.step] at h
      split at h
      · next q' hq =>
        cases h
        obtain ⟨hk, rfl⟩ | ⟨c, t, hk, ht, rfl⟩ := ih hq
        · exact .inl ⟨hk, rfl⟩
        · exact .inr ⟨c, t, hk, ht, rfl⟩
      · cases h
      · cases h

theorem Platform.step_length {p q : Platform} {k : Nat} (h : Platform.step p k = .next q) : q.length = p.length := by
  obtain ⟨-, rfl⟩ | ⟨b, t, -, -, rfl⟩ := Platform.step_cases h
  · rfl
  · exact List.length_set

/-- One step of a platform, seen by its j-th instance: a step of its own if the platform names it, otherwise none. -/
theorem Platform.step_instance {p q : Platform} {k j : Nat} {b : PortedBlock} (h : Platform.step p k = .next q)
    (hb : p[j]? = some b) : ∃ c, q[j]? = some c ∧ c.base = b.base ∧
      ∀ n, Host.Core.run core (n + if k == j then 1 else 0) b.block = Host.Core.run core n c.block := by
  by_cases hkj : k = j
  · subst hkj
    obtain ⟨hnone, -⟩ | ⟨b', t, hb', ht, rfl⟩ := Platform.step_cases h
    · simp [hb] at hnone
    · obtain rfl : b = b' := Option.some.inj (hb.symm.trans hb')
      have hk : k < p.length := (List.getElem?_eq_some_iff.mp hb).1
      exact ⟨{ b with block := t }, List.getElem?_set_self hk, rfl, fun n => by simpa using run_succ ht n⟩
  · have hq : q[j]? = some b := by
      obtain ⟨-, rfl⟩ | ⟨b', t, -, -, rfl⟩ := Platform.step_cases h
      · exact hb
      · rw [List.getElem?_set_ne hkj, hb]
    exact ⟨b, hq, rfl, fun n => by simp [hkj]⟩

theorem Platform.run_cons {k : Nat} {ks : List Nat} {p q : Platform} (h : Platform.run (k :: ks) p = .next q) :
    ∃ p', Platform.step p k = .next p' ∧ Platform.run ks p' = .next q := by
  simp only [Platform.run] at h
  split at h
  · next p' hp' => exact ⟨p', hp', h⟩
  · cases h
  · cases h

/-- Settles O50, by induction on the interleaving: each instance's run takes a step of its own for each time the
interleaving names it, and `Platform.step_instance` says that the other steps pass it by. -/
theorem instancesAreIsolated : Obligations.InstancesAreIsolated := by
  intro order
  induction order with
  | nil =>
    intro p q h
    cases h
    exact ⟨rfl, fun k b hb => ⟨b, hb, rfl, rfl⟩⟩
  | cons k ks ih =>
    intro p q h
    obtain ⟨p', hstep, hrun⟩ := Platform.run_cons h
    obtain ⟨hlength, hrest⟩ := ih p' q hrun
    refine ⟨hlength.trans (Platform.step_length hstep), fun j b hb => ?_⟩
    obtain ⟨b', hb', hbase', hfirst⟩ := Platform.step_instance hstep hb
    obtain ⟨c, hc, hbase, hcrun⟩ := hrest j b' hb'
    refine ⟨c, hc, hbase.trans hbase', ?_⟩
    rw [List.count_cons, hfirst, hcrun]

end Sys2Proof.Machine

/-! ## A host access while a command is pending (70_reset_and_hazards.md R240) -/

namespace Sys2Proof.Machine

/-- R57, R58: while BUSY = 1 the only accesses that are done are the reads of the status registers. -/
theorem AccessDone.sameBlock_of_busy {acc : HostAccess} {s t : State} (h : AccessDone acc s t) (hb : s.busy = true) :
    SameBlock s t := by
  cases h with
  | readStatus | readFinfo0 | readFinfo1 => exact answer_sameBlock _ s
  | _ => exact absurd (‹s.busy = false›.symm.trans hb) Bool.false_ne_true

/-- Settles O46: the access raises a fault, which abandons the command, or is done, which in a busy block changes
nothing (`AccessDone.sameBlock_of_busy`). -/
theorem pendingCommandKeepsItsOperands : Obligations.PendingCommandKeepsItsOperands := by
  intro s t acc rest hb hf hin hstep
  rw [step_access hin] at hstep
  obtain ⟨hfaulted, -⟩ | ⟨-, code, -, s', acc', rfl, -⟩ | ⟨-, -, hdone⟩ := access_cases hstep
  · exact absurd (hf.symm.trans hfaulted) Bool.false_ne_true
  · exact .inr ⟨rfl, rfl, rfl⟩
  · exact .inl ((setInputs_sameBlock s rest).trans (hdone.sameBlock_of_busy hb))

end Sys2Proof.Machine
